-- ==== Sys2Proof/Word.lean ====
section
/-! DEFINITION. The bit-vector widths of the machine (00_scope.md R6, R8: all values are unsigned). -/

namespace Sys2Proof

/-- An 8-bit value: a register V[i], a timer, a memory cell. -/
abbrev Byte := BitVec 8

/-- A 16-bit value: an instruction word, `I`, `pc`, a stack entry. -/
abbrev Word := BitVec 16

/-- A 4-bit field of an instruction word (00_scope.md R7). -/
abbrev Nibble := BitVec 4

/-- The number of a general register V0 to VF (10_state.md R21). -/
abbrev Reg := Fin 16

/-- VF, the register that ADD Vx,Vy, SUB Vx,Vy and DRW also write as a flag (10_state.md R22). -/
abbrev VF : Reg := 15

end Sys2Proof
end

