-- ==== Sys2Proof/Syntax.lean ====
section
/-! DEFINITION. The 21 instructions of 30_encoding.md R73, one constructor per row of spec/opcode_table.json. -/

namespace Sys2Proof

/-- An instruction of 30_encoding.md R73 with its operand fields (R68, R70). -/
inductive Instr where
  /-- 00EE RET. -/
  | ret
  /-- 1nnn JP addr. -/
  | jp (nnn : BitVec 12)
  /-- 2nnn CALL addr. -/
  | call (nnn : BitVec 12)
  /-- 3xkk SE Vx, byte. -/
  | seImm (x : Reg) (kk : Byte)
  /-- 4xkk SNE Vx, byte. -/
  | sneImm (x : Reg) (kk : Byte)
  /-- 6xkk LD Vx, byte. -/
  | ldImm (x : Reg) (kk : Byte)
  /-- 7xkk ADD Vx, byte. -/
  | addImm (x : Reg) (kk : Byte)
  /-- 8xy0 LD Vx, Vy. -/
  | ldReg (x y : Reg)
  /-- 8xy2 AND Vx, Vy. -/
  | andReg (x y : Reg)
  /-- 8xy4 ADD Vx, Vy. -/
  | addReg (x y : Reg)
  /-- 8xy5 SUB Vx, Vy. -/
  | subReg (x y : Reg)
  /-- Annn LD I, addr. -/
  | ldI (nnn : BitVec 12)
  /-- Cxkk RND Vx, byte. -/
  | rnd (x : Reg) (kk : Byte)
  /-- Dxyn DRW Vx, Vy, n; `n` is a count of sprite rows (R70), 0 to 15 in a well-formed instruction. -/
  | drw (x y : Reg) (n : Nat)
  /-- ExA1 SKNP Vx. -/
  | sknp (x : Reg)
  /-- Fx07 LD Vx, DT. -/
  | ldVxDt (x : Reg)
  /-- Fx15 LD DT, Vx. -/
  | ldDtVx (x : Reg)
  /-- Fx18 LD ST, Vx. -/
  | ldStVx (x : Reg)
  /-- Fx29 LD F, Vx. -/
  | ldF (x : Reg)
  /-- Fx33 LD B, Vx. -/
  | ldB (x : Reg)
  /-- Fx65 LD Vx, [I]. -/
  | ldVxI (x : Reg)
  deriving DecidableEq, Repr

end Sys2Proof
end

