-- ==== Sys2Proof/WellFormed.lean ====
section
/-! DEFINITION. Which instructions have a word. Every value of every operand field is legal (30_encoding.md R77), and the types of
`Instr` hold the register numbers, bytes and addresses to their fields; the row count of DRW is a number, so its bound is
checked here (assumption 12). -/

namespace Sys2Proof

/-- The largest row count the 4-bit field n of DRW holds (30_encoding.md R70). -/
abbrev maxSpriteRows : Nat := 15

/-- The instruction's operands fit the fields of its format (30_encoding.md R69, R70). -/
def Instr.wellFormed : Instr → Bool
  | .drw _ _ n => decide (n ≤ maxSpriteRows)
  | .ret | .jp _ | .call _ | .seImm _ _ | .sneImm _ _ | .ldImm _ _ | .addImm _ _ | .ldReg _ _ | .andReg _ _ | .addReg _ _
  | .subReg _ _ | .ldI _ | .rnd _ _ | .sknp _ | .ldVxDt _ | .ldDtVx _ | .ldStVx _ | .ldF _ | .ldB _ | .ldVxI _ => true

end Sys2Proof
end

