-- ==== Sys2Proof/Decode.lean ====
section
/-! DEFINITION. The decoder of 30_encoding.md R71 and R73, total on any bytes, the encoder written from the formats of R69, and the
host's view of the decoder. -/

namespace Sys2Proof

/-! ## Fields of a word (30_encoding.md R68) -/

/-- x = w[11:8], a register number. -/
def fieldX (w : Word) : Reg := ⟨(w.extractLsb' 8 4).toNat, (w.extractLsb' 8 4).isLt⟩

/-- y = w[7:4], a register number. -/
def fieldY (w : Word) : Reg := ⟨(w.extractLsb' 4 4).toNat, (w.extractLsb' 4 4).isLt⟩

/-- n = w[3:0], the row count of DRW. -/
def fieldN (w : Word) : Nat := (w.extractLsb' 0 4).toNat

/-- kk = w[7:0], the byte immediate. -/
def fieldKk (w : Word) : Byte := w.extractLsb' 0 8

/-- nnn = w[11:0], the address immediate. -/
def fieldNnn (w : Word) : BitVec 12 := w.extractLsb' 0 12

/-! ## The opcode table (30_encoding.md R73) -/

/-- The rows of the opcode table by name. -/
inductive Opcode where
  | ret | jp | call | seImm | sneImm | ldImm | addImm | ldReg | andReg | addReg | subReg | ldI | rnd | drw | sknp
  | ldVxDt | ldDtVx | ldStVx | ldF | ldB | ldVxI
  deriving DecidableEq, Repr

/-- One row: `pattern` is the table's column "match". -/
structure Row where
  op : Opcode
  pattern : Word
  mask : Word
  deriving DecidableEq, Repr

/-- A word selects the row whose `w & mask == match` (30_encoding.md R71). -/
def Row.selects (r : Row) (w : Word) : Bool := w &&& r.mask == r.pattern

/-- The complete opcode table, row for row (30_encoding.md R73). -/
def opcodeTable : List Row :=
  [⟨.ret,    0x00EE, 0xFFFF⟩,
   ⟨.jp,     0x1000, 0xF000⟩,
   ⟨.call,   0x2000, 0xF000⟩,
   ⟨.seImm,  0x3000, 0xF000⟩,
   ⟨.sneImm, 0x4000, 0xF000⟩,
   ⟨.ldImm,  0x6000, 0xF000⟩,
   ⟨.addImm, 0x7000, 0xF000⟩,
   ⟨.ldReg,  0x8000, 0xF00F⟩,
   ⟨.andReg, 0x8002, 0xF00F⟩,
   ⟨.addReg, 0x8004, 0xF00F⟩,
   ⟨.subReg, 0x8005, 0xF00F⟩,
   ⟨.ldI,    0xA000, 0xF000⟩,
   ⟨.rnd,    0xC000, 0xF000⟩,
   ⟨.drw,    0xD000, 0xF000⟩,
   ⟨.sknp,   0xE0A1, 0xF0FF⟩,
   ⟨.ldVxDt, 0xF007, 0xF0FF⟩,
   ⟨.ldDtVx, 0xF015, 0xF0FF⟩,
   ⟨.ldStVx, 0xF018, 0xF0FF⟩,
   ⟨.ldF,    0xF029, 0xF0FF⟩,
   ⟨.ldB,    0xF033, 0xF0FF⟩,
   ⟨.ldVxI,  0xF065, 0xF0FF⟩]

/-- The row's instruction with its fields taken from the word (40_cycle.md R84). -/
def assemble (op : Opcode) (w : Word) : Instr :=
  match op with
  | .ret    => .ret
  | .jp     => .jp (fieldNnn w)
  | .call   => .call (fieldNnn w)
  | .seImm  => .seImm (fieldX w) (fieldKk w)
  | .sneImm => .sneImm (fieldX w) (fieldKk w)
  | .ldImm  => .ldImm (fieldX w) (fieldKk w)
  | .addImm => .addImm (fieldX w) (fieldKk w)
  | .ldReg  => .ldReg (fieldX w) (fieldY w)
  | .andReg => .andReg (fieldX w) (fieldY w)
  | .addReg => .addReg (fieldX w) (fieldY w)
  | .subReg => .subReg (fieldX w) (fieldY w)
  | .ldI    => .ldI (fieldNnn w)
  | .rnd    => .rnd (fieldX w) (fieldKk w)
  | .drw    => .drw (fieldX w) (fieldY w) (fieldN w)
  | .sknp   => .sknp (fieldX w)
  | .ldVxDt => .ldVxDt (fieldX w)
  | .ldDtVx => .ldDtVx (fieldX w)
  | .ldStVx => .ldStVx (fieldX w)
  | .ldF    => .ldF (fieldX w)
  | .ldB    => .ldB (fieldX w)
  | .ldVxI  => .ldVxI (fieldX w)

/-! ## The decoder -/

/-- The instruction of the row the word selects; none for an illegal word (30_encoding.md R71, R75). -/
def decodeWord (w : Word) : Option Instr := (opcodeTable.find? (·.selects w)).map (fun r => assemble r.op w)

/-- Why bytes are no instruction. -/
inductive DecodeReject where
  /-- Fewer than the two bytes every instruction has (30_encoding.md R67). -/
  | truncated
  /-- The word matches no row (30_encoding.md R75). -/
  | illegal (w : Word)
  deriving DecidableEq, Repr

/-- The big-endian word of two bytes, the byte at the lower address first (20_memory.md R53, R54). -/
def wordOfBytes (hi lo : Byte) : Word := hi ++ lo

/-- Decode the instruction that stands first in the bytes, and give the bytes after it. -/
def decode : List Byte → Except DecodeReject (Instr × List Byte)
  | hi :: lo :: rest =>
    match decodeWord (wordOfBytes hi lo) with
    | some i => .ok (i, rest)
    | none => .error (.illegal (wordOfBytes hi lo))
  | [_] => .error .truncated
  | [] => .error .truncated

/-! ## The encoder (30_encoding.md R69) -/

/-- A register number as a 4-bit field. -/
def regBits (r : Reg) : Nibble := BitVec.ofNat 4 r.val

/-- Format ADDR: n1, nnn. -/
def addrWord (n1 : Nibble) (nnn : BitVec 12) : Word := n1 ++ nnn

/-- Formats REG_IMM and REG_FN: n1, x, and the byte immediate or the function byte. -/
def regByteWord (n1 : Nibble) (x : Reg) (kk : Byte) : Word := n1 ++ regBits x ++ kk

/-- Formats REG_REG and DRAW: n1, x, y, and the function nibble or the row count. -/
def regRegWord (n1 : Nibble) (x y : Reg) (n4 : Nibble) : Word := n1 ++ regBits x ++ regBits y ++ n4

/-- The word of an instruction, from the column "encoding" of 30_encoding.md R73. -/
def encodeWord : Instr → Word
  | .ret         => 0x00EE
  | .jp nnn      => addrWord 0x1 nnn
  | .call nnn    => addrWord 0x2 nnn
  | .seImm x kk  => regByteWord 0x3 x kk
  | .sneImm x kk => regByteWord 0x4 x kk
  | .ldImm x kk  => regByteWord 0x6 x kk
  | .addImm x kk => regByteWord 0x7 x kk
  | .ldReg x y   => regRegWord 0x8 x y 0x0
  | .andReg x y  => regRegWord 0x8 x y 0x2
  | .addReg x y  => regRegWord 0x8 x y 0x4
  | .subReg x y  => regRegWord 0x8 x y 0x5
  | .ldI nnn     => addrWord 0xA nnn
  | .rnd x kk    => regByteWord 0xC x kk
  | .drw x y n   => regRegWord 0xD x y (BitVec.ofNat 4 n)
  | .sknp x      => regByteWord 0xE x 0xA1
  | .ldVxDt x    => regByteWord 0xF x 0x07
  | .ldDtVx x    => regByteWord 0xF x 0x15
  | .ldStVx x    => regByteWord 0xF x 0x18
  | .ldF x       => regByteWord 0xF x 0x29
  | .ldB x       => regByteWord 0xF x 0x33
  | .ldVxI x     => regByteWord 0xF x 0x65

/-- The byte of a word that stands at the lower address (20_memory.md R54). -/
def highByte (w : Word) : Byte := w.extractLsb' 8 8

/-- The byte of a word that stands at the higher address (20_memory.md R54). -/
def lowByte (w : Word) : Byte := w.extractLsb' 0 8

/-- The bytes of an instruction in the order they stand in memory. -/
def encode (i : Instr) : List Byte := [highByte (encodeWord i), lowByte (encodeWord i)]

/-! ## The host's view -/

/-- The word of an opcode-table row's bits: the first 16 of its nbits bits, those above nbits zero. -/
def tableWord (nbits w : Nat) : Word := BitVec.ofNat 16 (w % 2 ^ nbits)

/-- What the decoder reads from the bytes of an opcode-table row's instruction, laid out as memory holds them. -/
def decodeTableWord (nbits w : Nat) : Option Instr :=
  match decode [highByte (tableWord nbits w), lowByte (tableWord nbits w)] with
  | .ok (i, _) => some i
  | .error _ => none

end Sys2Proof
end

