-- ==== Sys2Proof/Config.lean ====
section
/-! DEFINITION. The parameters of 00_scope.md R6 with their defaults, the fixed sizes of the address space,
and the one free value of the model (the byte RND draws). -/

namespace Sys2Proof

/-- VF_OPERAND_ORDER (40_cycle.md R88): when an instruction reads V[x] and V[y] relative to its own writes of VF. -/
inductive OperandOrder where
  /-- V[x] and V[y] are read once, before any write of the instruction (the default). -/
  | latched
  /-- Each mention of V[x] or V[y] reads the register at that point. -/
  | sequential
  deriving DecidableEq, Repr

/-- The parameters a machine is constructed with (00_scope.md R6, rows marked "parameter"). A state carries its own
(assumption 1), so that a statement about every state holds for every value of them. -/
structure Config where
  /-- FONT: the 80 bytes that load_fontset writes at address 0 (10_state.md R35, R36). -/
  font : Vector Byte 80
  /-- ST_RESET: the reset value of the sound timer (10_state.md R33). -/
  stReset : Byte
  /-- VF_OPERAND_ORDER (40_cycle.md R88). -/
  vfOperandOrder : OperandOrder
  deriving DecidableEq, Repr

/-- The default font, glyphs 0 to 7, one row of five bytes a glyph (10_state.md R36). -/
def Config.defaultGlyphsLow : List Byte :=
  [0xF0, 0x90, 0x90, 0x90, 0xF0] ++ [0x20, 0x60, 0x20, 0x20, 0x70] ++
  [0xF0, 0x10, 0xF0, 0x80, 0xF0] ++ [0xF0, 0x10, 0xF0, 0x10, 0xF0] ++
  [0x90, 0x90, 0xF0, 0x10, 0x10] ++ [0xF0, 0x80, 0xF0, 0x10, 0xF0] ++
  [0xF0, 0x80, 0xF0, 0x90, 0xF0] ++ [0xF0, 0x10, 0x20, 0x40, 0x40]

/-- The default font, glyphs 8 to F (10_state.md R36). -/
def Config.defaultGlyphsHigh : List Byte :=
  [0xF0, 0x90, 0xF0, 0x90, 0xF0] ++ [0xF0, 0x90, 0xF0, 0x10, 0xF0] ++
  [0xF0, 0x90, 0xF0, 0x90, 0x90] ++ [0xE0, 0x90, 0xE0, 0x90, 0xE0] ++
  [0xF0, 0x80, 0x80, 0x80, 0xF0] ++ [0xE0, 0x90, 0x90, 0x90, 0xE0] ++
  [0xF0, 0x80, 0xF0, 0x80, 0xF0] ++ [0xF0, 0x80, 0xF0, 0x80, 0x80]

/-- The default of FONT (10_state.md R36; the spec takes the bytes from general knowledge). -/
def Config.defaultFont : Vector Byte 80 :=
  ⟨(Config.defaultGlyphsLow ++ Config.defaultGlyphsHigh).toArray, by decide⟩

/-- The defaults of the parameters, which reproduce this hardware (00_scope.md R6). -/
def Config.default : Config where
  font := Config.defaultFont
  stReset := 0xFF
  vfOperandOrder := .latched

/-- The last address of memory (20_memory.md R48). -/
abbrev Config.lastAddr : Nat := 0xFFF

/-- PROG_BASE: where programs are loaded, and the reset value of `pc` (00_scope.md R6). -/
abbrev Config.progBase : Nat := 0x200

/-- MAX_ROM: the longest program load_program takes (70_reset_and_hazards.md R139). -/
abbrev Config.maxRom : Nat := 3584

/-- The byte that the n-th RND of a machine draws: a FREE VALUE (42_register_arith.md R105, assumption 2). It has no body, so
that nothing can be proved of its value. -/
opaque Config.rndByte : Nat → Byte

end Sys2Proof
end

