-- ==== Sys2Proof/Machine/State.lean ====
section
/-! DEFINITION. The machine state of 10_state.md R20, its value after construction (R47), and the reasons a step can stop. -/

namespace Sys2Proof.Machine

/-- Memory as the listed cells of the address space; the canonical form is `Memory.wf` in Ops.lean. -/
abbrev Memory := List Host.Cell

/-- The fault causes of 60_exceptions.md R116. A cause is recorded in the state by the fault entry of R121. -/
inductive FaultCause where
  | decodeFault | memoryBounds | stackOverflow | stackUnderflow | keyIndex
  deriving DecidableEq, Repr

/-- The fault record of a halted machine (10_state.md R41). -/
structure FaultRecord where
  cause : FaultCause
  info : Word
  deriving DecidableEq, Repr

/-- The machine state. The fields up to `fault` are the spec's (10_state.md R20); the last three are the model's own. -/
structure State where
  /-- 4096 bytes (R34). -/
  mem : Memory
  /-- V0 to VF (R21). -/
  V : Vector Byte 16
  /-- The index register (R24). -/
  I : Word
  /-- The program counter (R26). -/
  pc : Word
  /-- The 16 return-address slots (R29). -/
  stack : Vector Word 16
  /-- How many stack slots are in use, 0 to 16, in 8 bits (R30, R44). -/
  sp : Byte
  /-- The delay timer (R32). -/
  DT : Byte
  /-- The sound timer (R33). -/
  ST : Byte
  /-- The framebuffer, cell r * 64 + c for column c of row r; true is 1 (R37, assumption 14). -/
  fb : Vector Bool 2048
  /-- The draw flag (R40). -/
  draw : Bool
  /-- The key latch; true is pressed (R39). -/
  key : Vector Bool 16
  /-- The machine has stopped on a fault (R41). -/
  halted : Bool
  /-- The fault that halted it (R41). -/
  fault : Option FaultRecord
  /-- How many times the output event `sound_expired` has been emitted (R42, assumption 3). -/
  soundExpired : Nat
  /-- How many bytes RND has drawn: the index of the next `Config.rndByte` (assumption 2). -/
  rndDraws : Nat
  /-- The parameters the machine was constructed with (00_scope.md R6, assumption 1). -/
  config : Config
  deriving DecidableEq, Repr

/-- The state after construction with the given parameters (10_state.md R47, 70_reset_and_hazards.md R136). -/
def State.construct (c : Config) : State where
  mem := []
  V := Vector.replicate 16 0
  I := 0
  pc := 0x200
  stack := Vector.replicate 16 0
  sp := 0
  DT := 0
  ST := c.stReset
  fb := Vector.replicate 2048 false
  draw := false
  key := Vector.replicate 16 false
  halted := false
  fault := none
  soundExpired := 0
  rndDraws := 0
  config := c

/-- The machine right after reset, which is construction with the default parameters (70_reset_and_hazards.md R136). -/
def State.reset : State := State.construct Config.default

/-- The reasons a step stops. A fault of the SPEC is not one of them: it is taken, and leaves a next state that is halted
(assumption 4). -/
inductive Fault where
  /-- Raised by CALL and RET when `sp` is above 16 and so names a stack slot that does not exist (10_state.md R30: "values
  above 16 are unreachable"). No run reaches such a state. Safe: the machine stops where the spec gives no slot. -/
  | noStackSlot (slot : Nat)
  deriving DecidableEq, Repr

/-- The reasons an instruction has no meaning. -/
inductive Refusal where
  /-- Raised by an arm of `exec` whose instruction has no meaning yet. No arm does. Safe. -/
  | notModelled (mnemonic : String)
  deriving DecidableEq, Repr

/-- The answer of a meaning or a step. -/
abbrev Answer := Host.Outcome State Fault Refusal

end Sys2Proof.Machine
end

