-- ==== Sys2Proof/Machine/Ops.lean ====
section
/-! DEFINITION. The named operations over memory, registers, stack, framebuffer and pc that the meanings share, and the one way
a fault is taken. -/

namespace Sys2Proof.Machine

/-! ## Memory (20_memory.md) -/

/-- What an address that no cell lists reads as: memory is 0 after reset (10_state.md R34, R47). -/
def Memory.unlisted : Byte := 0

/-- The byte at an address. -/
def Memory.read : Memory → Nat → Byte
  | [], _ => Memory.unlisted
  | (b, v) :: m, a => if a = b then v else Memory.read m a

/-- Put a cell in front, unless it would list what an unlisted address reads as. -/
def Memory.putCell (a : Nat) (v : Byte) (m : Memory) : Memory := if v = Memory.unlisted then m else (a, v) :: m

/-- Store a byte, keeping the canonical form. -/
def Memory.write : Memory → Nat → Byte → Memory
  | [], a, v => Memory.putCell a v []
  | (b, u) :: m, a, v =>
    if a < b then Memory.putCell a v ((b, u) :: m)
    else if a = b then Memory.putCell a v m
    else (b, u) :: Memory.write m a v

/-- The canonical form: addresses strictly rising and inside the address space, no cell listing what an unlisted address
reads as. -/
abbrev Memory.wf (m : Memory) : Prop :=
  m.Pairwise (fun c d => c.1 < d.1) ∧ ∀ c ∈ m, c.1 ≤ Config.lastAddr ∧ c.2 ≠ Memory.unlisted

/-- Store bytes at consecutive addresses, in ascending order (20_memory.md R56). -/
def Memory.writeList : Memory → Nat → List Byte → Memory
  | m, _, [] => m
  | m, a, v :: vs => Memory.writeList (m.write a v) (a + 1) vs

/-- `MemRead(a, 1)`: the byte, or the bounds fault with the address as info (20_memory.md R51). -/
def State.memRead (s : State) (a : Nat) : Except FaultRecord Byte :=
  if Config.lastAddr < a then .error ⟨.memoryBounds, BitVec.ofNat 16 a⟩ else .ok (s.mem.read a)

/-- The `count` bytes from I on all lie in memory: the check a multi-byte instruction makes before any write
(20_memory.md R52, R66; 43_index_memory.md R108, R109; 44_draw.md R110). The sum is exact and never wraps. -/
def State.indexedFits (s : State) (count : Nat) : Bool :=
  decide (count = 0 ∨ s.I.toNat + (count - 1) ≤ Config.lastAddr)

/-- The byte at I + offset; the reader has checked that it lies in memory. -/
def State.indexedByte (s : State) (offset : Nat) : Byte := s.mem.read (s.I.toNat + offset)

/-! ## Registers (10_state.md R21) -/

/-- `V[r]`. -/
def State.getV (s : State) (r : Reg) : Byte := s.V[r.val]

/-- `V[r] <- v`. -/
def State.setV (s : State) (r : Reg) (v : Byte) : State := { s with V := s.V.set r.val v }

/-! ## The program counter (40_cycle.md R86) -/

/-- `pc <- target`. -/
def State.setPc (s : State) (target : Word) : State := { s with pc := target }

/-- `pc <- pc + 2`. -/
def State.advance (s : State) : State := s.setPc (s.pc + 2)

/-- `pc <- pc + 4` where the condition holds, else `pc <- pc + 2`: the skipped word is not fetched (40_cycle.md R83). -/
def State.skipIf (s : State) (taken : Bool) : State := s.setPc (if taken then s.pc + 4 else s.pc + 2)

/-! ## The framebuffer (10_state.md R37) -/

/-- `fb[k]`, true for 1. -/
def State.getFb (s : State) (k : Fin 2048) : Bool := s.fb[k.val]

/-- `fb[k] <- fb[k] ^ 1`. -/
def State.flipFb (s : State) (k : Fin 2048) : State := { s with fb := s.fb.set k.val (!s.fb[k.val]) }

/-! ## The key latch (10_state.md R39) -/

/-- `key[k]`, true for pressed. -/
def State.getKey (s : State) (k : Fin 16) : Bool := s.key[k.val]

/-! ## Faults (60_exceptions.md R121) -/

/-- Take a fault: every other piece of state stays as it is, so a meaning raises on the state the cycle began with, before
its first write (40_cycle.md R87). Control goes nowhere; there is no return from it (60_exceptions.md R122). -/
def State.raise (s : State) (cause : FaultCause) (info : Word) : State :=
  { s with halted := true, fault := some ⟨cause, info⟩ }

/-- The code of a cause (60_exceptions.md R116). -/
def FaultCause.code : FaultCause → Nat
  | .decodeFault => 1
  | .memoryBounds => 2
  | .stackOverflow => 3
  | .stackUnderflow => 4
  | .keyIndex => 5

/-- The info of a DRW, LD B or LD Vx,[I] that reaches past memory: the first address past 0xFFF (60_exceptions.md R116). -/
abbrev firstAddrPastMemory : Word := 0x1000

/-! ## The call stack (10_state.md R30) -/

/-- The number of entries that fills the stack (10_state.md R30). -/
abbrev stackDepth : Nat := 16

/-- Push `pc` on a stack that is not full and go to the target (41_control_flow.md R96). A slot number above 15 exists in no
reachable state and stops the machine (assumption 5). -/
def State.pushPcAndGo (s : State) (target : Word) : Answer :=
  if h : s.sp.toNat < 16 then
    .next (State.setPc { s with stack := s.stack.set s.sp.toNat s.pc, sp := s.sp + 1 } target)
  else .fault (.noStackSlot s.sp.toNat)

/-- Pop a stack that is not empty and go to the popped call site plus 2; the slot keeps its value (41_control_flow.md R94). -/
def State.popAndGo (s : State) : Answer :=
  if h : s.sp.toNat - 1 < 16 then
    .next (State.setPc { s with sp := s.sp - 1 } (s.stack[s.sp.toNat - 1] + 2))
  else .fault (.noStackSlot (s.sp.toNat - 1))

end Sys2Proof.Machine
end

