-- ==== Sys2Proof/Machine/Cycle.lean ====
section
/-! DEFINITION. The parts of a cycle around Execute: the fetch (20_memory.md R53), the timer step (40_cycle.md R90) and how a
cycle ends (40_cycle.md R81). -/

namespace Sys2Proof.Machine

/-- `Fetch()`: the big-endian word at pc, or the bounds fault of its first byte outside memory (20_memory.md R53). -/
def State.fetch (s : State) : Except FaultRecord Word :=
  match s.memRead s.pc.toNat with
  | .error r => .error r
  | .ok hi =>
    match s.memRead (s.pc.toNat + 1) with
    | .error r => .error r
    | .ok lo => .ok (wordOfBytes hi lo)

/-- A timer counts down to 0 and holds there (40_cycle.md R90). -/
def countDown (t : Byte) : Byte := if t = 0 then 0 else t - 1

/-- `TimerStep()`: both timers count down once; `sound_expired` is emitted when ST goes from 1 to 0 (40_cycle.md R90, R91). -/
def State.timerStep (s : State) : State :=
  { s with
    DT := countDown s.DT
    ST := countDown s.ST
    soundExpired := if s.ST = 1 then s.soundExpired + 1 else s.soundExpired }

/-- The end of a cycle: the timer step runs after an Execute that completes, and not in a cycle that faults (40_cycle.md R81,
R87). -/
def endCycle : Answer → Answer
  | .next t => .next (if t.halted then t else t.timerStep)
  | .fault r => .fault r
  | .refused r => .refused r

end Sys2Proof.Machine
end

