-- ==== Sys2Proof/Machine/Operands.lean ====
section
/-! DEFINITION. How operand fields become values (30_encoding.md R70) and when a register operand is read (40_cycle.md R88). -/

namespace Sys2Proof.Machine

/-- A 12-bit address as a 16-bit `pc` or `I` value, zero extended (30_encoding.md R70). -/
def addrOperand (nnn : BitVec 12) : Word := nnn.setWidth 16

/-- A register operand of an instruction that also writes VF: the value latched at the start of Execute, or the register as it
stands now (40_cycle.md R88). -/
def State.operand (s : State) (latched : Byte) (r : Reg) : Byte :=
  match s.config.vfOperandOrder with
  | .latched => latched
  | .sequential => s.getV r

/-- The hundreds, tens and ones digits of a byte (43_index_memory.md R108). -/
def decimalDigits (v : Byte) : List Byte :=
  [BitVec.ofNat 8 (v.toNat / 100), BitVec.ofNat 8 (v.toNat / 10 % 10), BitVec.ofNat 8 (v.toNat % 10)]

/-- The address of the font glyph for a value, five bytes a glyph, no masking (43_index_memory.md R107). -/
def glyphAddr (v : Byte) : Word := BitVec.ofNat 16 (v.toNat * 5)

end Sys2Proof.Machine
end

