-- ==== Sys2Proof/Machine/ControlFlow.lean ====
section
/-! DEFINITION. The meanings of RET, JP, CALL, SE and SNE (41_control_flow.md). -/

namespace Sys2Proof.Machine

/-- RET (R94). -/
def execRet (s : State) : Answer :=
  if s.sp = 0 then .next (s.raise .stackUnderflow 0x00EE) else s.popAndGo

/-- JP addr (R95). -/
def execJp (nnn : BitVec 12) (s : State) : Answer := .next (s.setPc (addrOperand nnn))

/-- CALL addr (R96); the info of a StackOverflow is the CALL word itself. -/
def execCall (nnn : BitVec 12) (s : State) : Answer :=
  if s.sp.toNat = stackDepth then .next (s.raise .stackOverflow (encodeWord (.call nnn)))
  else s.pushPcAndGo (addrOperand nnn)

/-- SE Vx, byte (R97). -/
def execSeImm (x : Reg) (kk : Byte) (s : State) : Answer := .next (s.skipIf (s.getV x == kk))

/-- SNE Vx, byte (R98). -/
def execSneImm (x : Reg) (kk : Byte) (s : State) : Answer := .next (s.skipIf (s.getV x != kk))

end Sys2Proof.Machine
end

