-- ==== Sys2Proof/Machine/Draw.lean ====
section
/-! DEFINITION. The meaning of DRW (44_draw.md R110). -/

namespace Sys2Proof.Machine

/-- The cell of a sprite bit: one combined index modulo 2048, not independent wraps (R110, 90_conflicts.md C9). -/
def cellIndex (ox oy : Byte) (row col : Nat) : Fin 2048 :=
  ⟨((ox.toNat + col) + (oy.toNat + row) * 64) % 2048, Nat.mod_lt _ (by decide)⟩

/-- XOR one set sprite bit onto its cell; VF becomes 1 if the cell was already 1 (R110). -/
def State.drawCell (s : State) (k : Fin 2048) : State := (if s.getFb k then s.setV VF 1 else s).flipFb k

/-- Draw bit `col` of a sprite row, the most significant bit first; the origin is latched or read anew at each set bit
(R110, 40_cycle.md R88). -/
def State.drawBit (vx vy : Byte) (x y : Reg) (row : Nat) (bits : Byte) (s : State) (col : Nat) : State :=
  if bits.getLsbD (7 - col) then s.drawCell (cellIndex (s.operand vx x) (s.operand vy y) row col) else s

/-- Draw one row of the sprite: the byte at I + row (R110). -/
def State.drawRow (vx vy : Byte) (x y : Reg) (s : State) (row : Nat) : State :=
  (List.range 8).foldl (State.drawBit vx vy x y row (s.indexedByte row)) s

/-- Clear VF and draw rows 0 to n - 1 in order (R110). -/
def State.drawSprite (s : State) (x y : Reg) (n : Nat) : State :=
  (List.range n).foldl (State.drawRow (s.getV x) (s.getV y) x y) (s.setV VF 0)

/-- DRW Vx, Vy, n (R110): the draw flag is set for every n, 0 included (10_state.md R40). -/
def execDrw (x y : Reg) (n : Nat) (s : State) : Answer :=
  if s.indexedFits n then .next (State.advance { s.drawSprite x y n with draw := true })
  else .next (s.raise .memoryBounds firstAddrPastMemory)

end Sys2Proof.Machine
end

