-- ==== Sys2Proof/Machine/IndexMemory.lean ====
section
/-! DEFINITION. The meanings of LD I, LD F, LD B and LD Vx,[I] (43_index_memory.md). None of them changes I by an access
(10_state.md R24). -/

namespace Sys2Proof.Machine

/-- LD I, addr (R106). -/
def execLdI (nnn : BitVec 12) (s : State) : Answer := .next (State.advance { s with I := addrOperand nnn })

/-- LD F, Vx (R107). -/
def execLdF (x : Reg) (s : State) : Answer := .next (State.advance { s with I := glyphAddr (s.getV x) })

/-- LD B, Vx (R108): the whole range is checked before any write. -/
def execLdB (x : Reg) (s : State) : Answer :=
  if s.indexedFits 3 then
    .next (State.advance { s with mem := s.mem.writeList s.I.toNat (decimalDigits (s.getV x)) })
  else .next (s.raise .memoryBounds firstAddrPastMemory)

/-- `V[j] <- MemRead(I + j, 1)`; there are 16 registers (R109). -/
def State.loadReg (s : State) (j : Nat) : State := if h : j < 16 then s.setV ⟨j, h⟩ (s.indexedByte j) else s

/-- `for j in 0 .. count - 1: V[j] <- MemRead(I + j, 1)` (R109). -/
def State.loadRegs (s : State) : Nat → State
  | 0 => s
  | j + 1 => (s.loadRegs j).loadReg j

/-- LD Vx, [I] (R109): x + 1 bytes, I to I + x inclusive. -/
def execLdVxI (x : Reg) (s : State) : Answer :=
  if s.indexedFits (x.val + 1) then .next (s.loadRegs (x.val + 1)).advance
  else .next (s.raise .memoryBounds firstAddrPastMemory)

end Sys2Proof.Machine
end

