-- ==== Sys2Proof/Machine/InputTimers.lean ====
section
/-! DEFINITION. The meanings of SKNP and the timer transfers (45_input_timers.md). The timer step of the same cycle follows them
(40_cycle.md R90). -/

namespace Sys2Proof.Machine

/-- SKNP Vx (R112): a key number above 0xF faults. -/
def execSknp (x : Reg) (s : State) : Answer :=
  if h : (s.getV x).toNat < 16 then .next (s.skipIf (!s.getKey ⟨(s.getV x).toNat, h⟩))
  else .next (s.raise .keyIndex ((s.getV x).setWidth 16))

/-- LD Vx, DT (R113): the value before this cycle's timer step. -/
def execLdVxDt (x : Reg) (s : State) : Answer := .next (s.setV x s.DT).advance

/-- LD DT, Vx (R114). -/
def execLdDtVx (x : Reg) (s : State) : Answer := .next (State.advance { s with DT := s.getV x })

/-- LD ST, Vx (R115). -/
def execLdStVx (x : Reg) (s : State) : Answer := .next (State.advance { s with ST := s.getV x })

end Sys2Proof.Machine
end

