-- ==== Sys2Proof/Machine/Flags.lean ====
section
/-! DEFINITION. The values written into VF as a flag (10_state.md R43): the carry of ADD Vx,Vy and the "Vx > Vy" of SUB Vx,Vy. The
collision of DRW is set pixel by pixel, in Draw.lean. -/

namespace Sys2Proof.Machine

/-- The exact sum of two registers, 0 to 510 (42_register_arith.md R103). -/
abbrev sumOf (vx vy : Byte) : Nat := vx.toNat + vy.toNat

/-- 1 iff the unsigned sum exceeds 255 (42_register_arith.md R103). -/
def carryFlag (vx vy : Byte) : Byte := if 255 < sumOf vx vy then 1 else 0

/-- 1 iff vx > vy, strictly: equal operands give 0 although no borrow occurs (42_register_arith.md R104). -/
def greaterFlag (vx vy : Byte) : Byte := if vy.toNat < vx.toNat then 1 else 0

end Sys2Proof.Machine
end

