-- ==== Sys2Proof/Machine/RegisterArith.lean ====
section
/-! DEFINITION. The meanings of the register loads and the arithmetic (42_register_arith.md). -/

namespace Sys2Proof.Machine

/-- LD Vx, byte (R99). -/
def execLdImm (x : Reg) (kk : Byte) (s : State) : Answer := .next (s.setV x kk).advance

/-- ADD Vx, byte (R100): no flag is written. -/
def execAddImm (x : Reg) (kk : Byte) (s : State) : Answer := .next (s.setV x (s.getV x + kk)).advance

/-- LD Vx, Vy (R101). -/
def execLdReg (x y : Reg) (s : State) : Answer := .next (s.setV x (s.getV y)).advance

/-- AND Vx, Vy (R102): no flag is written. -/
def execAndReg (x y : Reg) (s : State) : Answer := .next (s.setV x (s.getV x &&& s.getV y)).advance

/-- ADD Vx, Vy (R103): both operands are read before any write; VF is written first, so for x = F the sum stays (40_cycle.md
R89). -/
def execAddReg (x y : Reg) (s : State) : Answer :=
  let vx := s.getV x
  let vy := s.getV y
  .next ((s.setV VF (carryFlag vx vy)).setV x (BitVec.ofNat 8 (sumOf vx vy))).advance

/-- SUB Vx, Vy (R104): the difference reads its operands latched, or after the write of VF (40_cycle.md R88). -/
def execSubReg (x y : Reg) (s : State) : Answer :=
  let vx := s.getV x
  let vy := s.getV y
  let t := s.setV VF (greaterFlag vx vy)
  .next (t.setV x (t.operand vx x - t.operand vy y)).advance

/-- RND with the byte r it draws (R105). -/
def State.rndWith (s : State) (x : Reg) (kk r : Byte) : State := (s.setV x (r &&& kk)).advance

/-- RND Vx, byte (R105): the byte is a free value, a fresh one for each draw (assumption 2). -/
def execRnd (x : Reg) (kk : Byte) (s : State) : Answer :=
  .next { s.rndWith x kk (Config.rndByte s.rndDraws) with rndDraws := s.rndDraws + 1 }

end Sys2Proof.Machine
end

