-- ==== Sys2Proof/Machine/Step.lean ====
section
/-! DEFINITION. One `cycle()` (40_cycle.md R81), and how the host of this package places an instruction for it. -/

namespace Sys2Proof.Machine

/-- `cycle()` (40_cycle.md R81): a halted machine does not change (60_exceptions.md R122); a fault at the fetch, the decode or the
execute step is taken on the state the cycle began with (R121). -/
def step (s : State) : Host.Outcome State Fault Refusal :=
  if s.halted then .next s
  else
    match s.fetch with
    | .error r => .next (s.raise r.cause r.info)
    | .ok w =>
      match decodeWord w with
      | none => .next (s.raise .decodeFault w)
      | some i => endCycle (exec i s)

/-- The state with an opcode-table row's instruction stored where `step` fetches next (assumption 9). A machine whose `pc` has
no two bytes of memory, or that is halted, is put back at the entry point or set running, which the fetch needs. -/
def State.withFetchWord (s : State) (nbits w : Nat) : State :=
  let pc := if s.pc.toNat < Config.lastAddr then s.pc else BitVec.ofNat 16 Config.progBase
  { s with
    mem := s.mem.writeList pc.toNat [highByte (tableWord nbits w), lowByte (tableWord nbits w)]
    pc := pc
    halted := false
    fault := none }

end Sys2Proof.Machine
end

