-- ==== Sys2Proof/Machine/HostOps.lean ====
section
/-! DEFINITION. The host's operations of 10_state.md R46 other than construct (`State.construct`) and cycle (`step`). -/

namespace Sys2Proof.Machine

/-! ## Loading (70_reset_and_hazards.md R138 to R140) -/

/-- Why a load is refused; nothing is written then (60_exceptions.md R123). -/
inductive LoadFault where
  /-- The program bytes cannot be obtained. -/
  | sourceUnavailable
  /-- The program is longer than MAX_ROM. -/
  | tooLong (len : Nat)
  deriving DecidableEq, Repr

/-- `load_fontset()`: FONT at 0x000 to 0x04F (R138). -/
def State.loadFontset (s : State) : State := { s with mem := s.mem.writeList 0 s.config.font.toList }

/-- `load_program(bytes)`: the bytes from 0x200 on, or a load fault (R139). `none` is a source that cannot be read. -/
def State.loadProgram (s : State) : Option (List Byte) → Except LoadFault State
  | none => .error .sourceUnavailable
  | some bytes =>
    if Config.maxRom < bytes.length then .error (.tooLong bytes.length)
    else .ok { s with mem := s.mem.writeList Config.progBase bytes }

/-- `Boot(bytes)`: construct, load_fontset, load_program (R140). -/
def boot (c : Config) (bytes : List Byte) : Except LoadFault State :=
  (State.construct c).loadFontset.loadProgram (some bytes)

/-! ## Between cycles (70_reset_and_hazards.md R143) -/

/-- What the host may change between two cycles. -/
inductive HostAct where
  /-- `key[k] <- b`. -/
  | writeKey (k : Fin 16) (pressed : Bool)
  /-- `draw <- false`. -/
  | clearDraw
  deriving DecidableEq, Repr

/-- The state after an act of the host (10_state.md R46). -/
def State.hostAct (s : State) : HostAct → State
  | .writeKey k b => { s with key := s.key.set k.val b }
  | .clearDraw => { s with draw := false }

/-- One event of a machine's life after boot: a cycle, or an act of the host between cycles. -/
inductive Event where
  | cycle
  | host (a : HostAct)
  deriving DecidableEq, Repr

/-- The answer to an event. -/
def State.event (s : State) : Event → Answer
  | .cycle => step s
  | .host a => .next (s.hostAct a)

/-- The answer to a sequence of events, the first stop ending it. -/
def State.events (s : State) : List Event → Answer
  | [] => .next s
  | e :: es =>
    match s.event e with
    | .next t => t.events es
    | .fault r => .fault r
    | .refused r => .refused r

/-! ## Reads (10_state.md R46): they change nothing -/

/-- Read a framebuffer cell, 0 or 1. -/
def State.hostReadFb (s : State) (k : Fin 2048) : Nat := if s.getFb k then 1 else 0

/-- Read the draw flag. -/
def State.hostReadDraw (s : State) : Bool := s.draw

/-- Read a byte of memory; there is none past 0xFFF. -/
def State.hostReadMem (s : State) (a : Nat) : Option Byte := if a ≤ Config.lastAddr then some (s.mem.read a) else none

/-- Read the run status. -/
def State.hostReadStatus (s : State) : Bool × Option FaultRecord := (s.halted, s.fault)

/-- The stack slot the diagnostics show: `stack[sp]`, the next free one, which does not exist when sp = 16
(60_exceptions.md R133). The text of the dumps is out of scope (00_scope.md R4). -/
def State.diagnosticSlot (s : State) : Option Word := s.stack[s.sp.toNat]?

end Sys2Proof.Machine
end

