-- ==== Sys2Proof/Safety.lean ====
section
/-! DEFINITION. The terms the statements are made in: what two states agree on, the invariant of the machine, the states a
machine can reach, and what keeps a cycle free of faults. -/

namespace Sys2Proof.Machine

/-! ## What two states agree on -/

/-- The parts of a state. -/
inductive Part where
  | mem | V | I | pc | stack | sp | DT | ST | fb | draw | key | halted | fault | soundExpired | rndDraws | config
  deriving DecidableEq, Repr

/-- Two states agree on a part; memory and registers are compared by reading every byte and every register. -/
def Same (s t : State) : Part → Prop
  | .mem => ∀ a, t.mem.read a = s.mem.read a
  | .V => ∀ r, t.getV r = s.getV r
  | .I => t.I = s.I
  | .pc => t.pc = s.pc
  | .stack => t.stack = s.stack
  | .sp => t.sp = s.sp
  | .DT => t.DT = s.DT
  | .ST => t.ST = s.ST
  | .fb => ∀ k, t.getFb k = s.getFb k
  | .draw => t.draw = s.draw
  | .key => ∀ k, t.getKey k = s.getKey k
  | .halted => t.halted = s.halted
  | .fault => t.fault = s.fault
  | .soundExpired => t.soundExpired = s.soundExpired
  | .rndDraws => t.rndDraws = s.rndDraws
  | .config => t.config = s.config

/-- The frame: `t` agrees with `s` on every part but the ones named. -/
def SameBut (ps : List Part) (s t : State) : Prop := ∀ p, p ∉ ps → Same s t p

/-- Every register but the ones named reads as before. -/
def SameRegsBut (rs : List Reg) (s t : State) : Prop := ∀ r, r ∉ rs → t.getV r = s.getV r

/-- `t` is `s` with one fault taken and nothing else changed: the state a faulting cycle leaves (60_exceptions.md R121). -/
def Faulted (s t : State) (cause : FaultCause) (info : Word) : Prop :=
  t.halted = true ∧ t.fault = some ⟨cause, info⟩ ∧ SameBut [.halted, .fault] s t

/-! ## Reading the machine -/

/-- The word that stands at an address, big-endian (20_memory.md R53). -/
def State.wordAt (s : State) (a : Nat) : Word := wordOfBytes (s.mem.read a) (s.mem.read (a + 1))

/-- The instruction at pc: the machine runs, both bytes at pc are in memory, and they decode to it (40_cycle.md R83, R84). -/
def State.Runs (s : State) (i : Instr) : Prop :=
  s.halted = false ∧ s.pc.toNat + 1 ≤ Config.lastAddr ∧ decodeWord (s.wordAt s.pc.toNat) = some i

/-- The state is parked at `a`: pc = a and the word at a is JP a (40_cycle.md R93). -/
def State.ParkedAt (s : State) (a : Nat) : Prop :=
  s.pc.toNat = a ∧ a + 1 ≤ Config.lastAddr ∧ s.mem.read a = BitVec.ofNat 8 (0x10 ||| a >>> 8)
    ∧ s.mem.read (a + 1) = BitVec.ofNat 8 (a &&& 0xFF)

/-! ## The invariant -/

/-- What holds of every state a machine can reach: the ranges of 10_state.md R25, R27, R30 and R31, the canonical form of memory,
and the agreement of the two run-status fields (R41). -/
structure Inv (s : State) : Prop where
  memWf : s.mem.wf
  indexInMemory : s.I.toNat ≤ 0xFFF
  pcRange : s.pc.toNat ≤ 0x1002
  spRange : s.sp.toNat ≤ 16
  callSites : ∀ j : Fin 16, s.stack[j.val].toNat ≤ 0xFFE
  haltedIffFault : s.halted = true ↔ s.fault.isSome = true

/-- The states a machine can be in after boot, for any parameters, any program and any acts of the host between cycles
(70_reset_and_hazards.md R140, R143, R144). -/
inductive Reachable : State → Prop where
  | boot (c : Config) (bytes : List Byte) (s : State) : boot c bytes = .ok s → Reachable s
  | cycle (s t : State) : Reachable s → step s = .next t → Reachable t
  | host (s : State) (a : HostAct) : Reachable s → Reachable (s.hostAct a)

/-! ## Runs free of faults (70_reset_and_hazards.md R150) -/

/-- What an instruction demands so as not to fault (R150). -/
def State.Allows (s : State) : Instr → Prop
  | .call _ => s.sp.toNat < 16
  | .ret => 0 < s.sp.toNat
  | .sknp x => (s.getV x).toNat ≤ 0xF
  | .drw _ _ n => n = 0 ∨ s.I.toNat + n - 1 ≤ 0xFFF
  | .ldB _ => s.I.toNat + 2 ≤ 0xFFF
  | .ldVxI x => s.I.toNat + x.val ≤ 0xFFF
  | .jp _ | .seImm _ _ | .sneImm _ _ | .ldImm _ _ | .addImm _ _ | .ldReg _ _ | .andReg _ _ | .addReg _ _ | .subReg _ _
  | .ldI _ | .rnd _ _ | .ldVxDt _ | .ldDtVx _ | .ldStVx _ | .ldF _ => True

/-- The program obligations of R150 for the next cycle: a legal word on the path, pc ≤ 0xFFE, and what the instruction
demands. -/
def State.MeetsObligations (s : State) : Prop := ∃ i, s.Runs i ∧ s.Allows i

end Sys2Proof.Machine
end

