-- ==== Sys2Proof/Certificates/Slice0/Obligations.lean ====
section
/-! DEFINITION. The statements about the machine, for the provers. Each docstring names the rule of spec/ it formalises; one that
rests on a choice of the model names the log entry. -/

open Sys2Proof Sys2Proof.Machine

/-! ## Encoding (30_encoding.md) -/

/-- One word of each row, written out bit by bit from the column "encoding" of 30_encoding.md R73. -/
def Obligations.WrittenOutWordsDecode : Prop :=
  decodeWord 0b0000000011101110 = some .ret ∧
  decodeWord 0b0001001000000100 = some (.jp 0x204) ∧
  decodeWord 0b0010001000010000 = some (.call 0x210) ∧
  decodeWord 0b0011111100000001 = some (.seImm 15 0x01) ∧
  decodeWord 0b0100001100010001 = some (.sneImm 3 0x11) ∧
  decodeWord 0b0110101001111011 = some (.ldImm 10 0x7B) ∧
  decodeWord 0b0111000011111111 = some (.addImm 0 0xFF) ∧
  decodeWord 0b1000000100100000 = some (.ldReg 1 2) ∧
  decodeWord 0b1000001000110010 = some (.andReg 2 3) ∧
  decodeWord 0b1000001000110100 = some (.addReg 2 3) ∧
  decodeWord 0b1000000000010101 = some (.subReg 0 1) ∧
  decodeWord 0b1010001100000000 = some (.ldI 0x300) ∧
  decodeWord 0b1100000000001111 = some (.rnd 0 0x0F) ∧
  decodeWord 0b1101000100100101 = some (.drw 1 2 5) ∧
  decodeWord 0b1110010010100001 = some (.sknp 4) ∧
  decodeWord 0b1111000100000111 = some (.ldVxDt 1) ∧
  decodeWord 0b1111000000010101 = some (.ldDtVx 0) ∧
  decodeWord 0b1111001000011000 = some (.ldStVx 2) ∧
  decodeWord 0b1111000000101001 = some (.ldF 0) ∧
  decodeWord 0b1111101000110011 = some (.ldB 10) ∧
  decodeWord 0b1111001001100101 = some (.ldVxI 2)

/-- Decoding the bytes of any well-formed instruction gives it back, with every operand, and the bytes after it. -/
def Obligations.DecodeEncodeAgree : Prop :=
  ∀ (i : Instr) (rest : List Byte), i.wellFormed = true → decode (encode i ++ rest) = .ok (i, rest)

/-- A word that decodes is the word of the instruction it decodes to, which is well formed: no legal row has don't-care bits
(30_encoding.md R77). -/
def Obligations.EncodeDecodeAgree : Prop :=
  ∀ (w : Word) (i : Instr), decodeWord w = some i → i.wellFormed = true ∧ encodeWord i = w

/-- R80: every word is exactly one row with its field values, or illegal. -/
def Obligations.EveryWordIsOneRowOrIllegal : Prop :=
  ∀ w : Word,
    (∃ r ∈ opcodeTable, w &&& r.mask = r.pattern ∧ decodeWord w = some (assemble r.op w) ∧
      ∀ q ∈ opcodeTable, w &&& q.mask = q.pattern → q = r) ∨
    ((∀ r ∈ opcodeTable, w &&& r.mask ≠ r.pattern) ∧ decodeWord w = none)

/-- A nibble as a register number. -/
def Sys2Proof.nibbleReg (b : Nibble) : Reg := ⟨b.toNat, b.isLt⟩

/-- The opcode map of 30_encoding.md R72, by family nibble. -/
def Sys2Proof.familyMap (n1 n2 n3 n4 : Nibble) : Option Instr :=
  match n1.toNat with
  | 0x0 => if n2 = 0x0 ∧ n3 = 0xE ∧ n4 = 0xE then some .ret else none
  | 0x1 => some (.jp (n2 ++ n3 ++ n4))
  | 0x2 => some (.call (n2 ++ n3 ++ n4))
  | 0x3 => some (.seImm (nibbleReg n2) (n3 ++ n4))
  | 0x4 => some (.sneImm (nibbleReg n2) (n3 ++ n4))
  | 0x6 => some (.ldImm (nibbleReg n2) (n3 ++ n4))
  | 0x7 => some (.addImm (nibbleReg n2) (n3 ++ n4))
  | 0x8 =>
    match n4.toNat with
    | 0x0 => some (.ldReg (nibbleReg n2) (nibbleReg n3))
    | 0x2 => some (.andReg (nibbleReg n2) (nibbleReg n3))
    | 0x4 => some (.addReg (nibbleReg n2) (nibbleReg n3))
    | 0x5 => some (.subReg (nibbleReg n2) (nibbleReg n3))
    | _ => none
  | 0xA => some (.ldI (n2 ++ n3 ++ n4))
  | 0xC => some (.rnd (nibbleReg n2) (n3 ++ n4))
  | 0xD => some (.drw (nibbleReg n2) (nibbleReg n3) n4.toNat)
  | 0xE => if n3 = 0xA ∧ n4 = 0x1 then some (.sknp (nibbleReg n2)) else none
  | 0xF =>
    match n3.toNat, n4.toNat with
    | 0x0, 0x7 => some (.ldVxDt (nibbleReg n2))
    | 0x1, 0x5 => some (.ldDtVx (nibbleReg n2))
    | 0x1, 0x8 => some (.ldStVx (nibbleReg n2))
    | 0x2, 0x9 => some (.ldF (nibbleReg n2))
    | 0x3, 0x3 => some (.ldB (nibbleReg n2))
    | 0x6, 0x5 => some (.ldVxI (nibbleReg n2))
    | _, _ => none
  | _ => none

/-- R72: the opcode map by family nibble n1, for all words. -/
def Obligations.OpcodeMapByFamilyNibble : Prop :=
  ∀ n1 n2 n3 n4 : Nibble, decodeWord (n1 ++ n2 ++ n3 ++ n4) = familyMap n1 n2 n3 n4

/-- The words of the wider CHIP-8 instruction set that 30_encoding.md R76 names as illegal. -/
def Sys2Proof.OmittedChip8Word (w : Word) : Prop :=
  (∃ nnn : BitVec 12, nnn ≠ 0x0EE ∧ w = 0x0#4 ++ nnn) ∨
  (∃ x y : Nibble, w = 0x5#4 ++ x ++ y ++ 0x0#4) ∨
  (∃ x y f : Nibble, f ∈ [0x1#4, 0x3#4, 0x6#4, 0x7#4, 0xE#4] ∧ w = 0x8#4 ++ x ++ y ++ f) ∨
  (∃ x y : Nibble, w = 0x9#4 ++ x ++ y ++ 0x0#4) ∨
  (∃ nnn : BitVec 12, w = 0xB#4 ++ nnn) ∨
  (∃ x : Nibble, w = 0xE#4 ++ x ++ 0x9E#8) ∨
  (∃ (x : Nibble) (f : Byte), f ∈ [0x0A#8, 0x1E#8, 0x55#8] ∧ w = 0xF#4 ++ x ++ f)

/-- R76: each instruction of the wider set is an illegal word here and faults, 0x0000 among them. -/
def Obligations.OmittedChip8WordsFault : Prop :=
  ∀ s : State, s.halted = false → s.pc.toNat ≤ 0xFFE → OmittedChip8Word (s.wordAt s.pc.toNat) →
    ∃ t, step s = .next t ∧ Faulted s t .decodeFault (s.wordAt s.pc.toNat)

/-! ## The cycle (40_cycle.md, 60_exceptions.md) -/

/-- A step of a running machine whose bytes at pc decode is Execute, then the timer step if no fault was taken (40_cycle.md R81);
the run status says whether one was. No instruction is refused. The clause on a fault of exec is the model's choice, no part of R81:
that fault is the model's own stop noStackSlot (assumption 5), in states no run reaches; a fault of the spec is a next state
(assumption 4). -/
def Obligations.StepRunsDecodedInstruction : Prop :=
  ∀ (s : State) (i : Instr), s.halted = false → s.pc.toNat ≤ 0xFFE →
    decode [s.mem.read s.pc.toNat, s.mem.read (s.pc.toNat + 1)] = .ok (i, []) →
    (∀ t, exec i s = .next t → t.halted = false → step s = .next t.timerStep) ∧
    (∀ t, exec i s = .next t → t.halted = true → step s = .next t) ∧
    (∀ r, exec i s = .fault r → step s = .fault r) ∧
    (∀ r, exec i s ≠ .refused r)

/-- R53: the fetch reads two bytes and forms a big-endian word, or faults with the first address outside memory. -/
def Obligations.FetchFormsBigEndianWordOrFaults : Prop :=
  ∀ s : State,
    (0xFFF < s.pc.toNat → s.fetch = .error ⟨.memoryBounds, s.pc⟩ ∧
      (s.halted = false → ∃ t, step s = .next t ∧ Faulted s t .memoryBounds s.pc)) ∧
    (s.pc.toNat = 0xFFF → s.fetch = .error ⟨.memoryBounds, 0x1000⟩ ∧
      (s.halted = false → ∃ t, step s = .next t ∧ Faulted s t .memoryBounds 0x1000)) ∧
    (s.pc.toNat < 0xFFF → ∃ w, s.fetch = .ok w ∧
      w.toNat = (s.mem.read s.pc.toNat).toNat * 256 + (s.mem.read (s.pc.toNat + 1)).toNat)

/-- R117 (and the last sentence of R84): a word of no row raises DecodeFault with the word; pc is not advanced. -/
def Obligations.IllegalWordRaisesDecodeFault : Prop :=
  ∀ s : State, s.halted = false → s.pc.toNat ≤ 0xFFE →
    (∀ r ∈ opcodeTable, s.wordAt s.pc.toNat &&& r.mask ≠ r.pattern) →
    ∃ t, step s = .next t ∧ Faulted s t .decodeFault (s.wordAt s.pc.toNat) ∧ t.pc = s.pc

/-- R87 and R121: a cycle that ends halted leaves every piece of state but the run status as it found it, and records a fault. -/
def Obligations.FaultingCycleIsPrecise : Prop :=
  ∀ s t : State, s.halted = false → step s = .next t → t.halted = true →
    t = { s with halted := true, fault := t.fault } ∧ ∃ c info, Faulted s t c info

/-- R122: no cycle changes a halted machine; between cycles the host reaches only the key latch and the draw flag, and the machine
stays halted. -/
def Obligations.HaltedIsAbsorbing : Prop :=
  ∀ s : State, s.halted = true →
    (∀ k, Host.Core.run Sys2Proof.core k s = .next s) ∧
    (∀ es : List Event, ∃ t, s.events es = .next t ∧ t.halted = true ∧ SameBut [.key, .draw] s t)

/-- The fault a cycle takes from a running state, in the priority order of 60_exceptions.md R124 and with the info of R116. -/
def Sys2Proof.Machine.firstFault (s : State) : Option FaultRecord :=
  if 0xFFF < s.pc.toNat then some ⟨.memoryBounds, s.pc⟩
  else if s.pc.toNat = 0xFFF then some ⟨.memoryBounds, 0x1000⟩
  else
    match decodeWord (s.wordAt s.pc.toNat) with
    | none => some ⟨.decodeFault, s.wordAt s.pc.toNat⟩
    | some (.call _) => if s.sp.toNat = 16 then some ⟨.stackOverflow, s.wordAt s.pc.toNat⟩ else none
    | some .ret => if s.sp.toNat = 0 then some ⟨.stackUnderflow, 0x00EE⟩ else none
    | some (.sknp x) => if 0xF < (s.getV x).toNat then some ⟨.keyIndex, (s.getV x).setWidth 16⟩ else none
    | some (.drw _ _ n) => if 1 ≤ n ∧ 0xFFF < s.I.toNat + n - 1 then some ⟨.memoryBounds, 0x1000⟩ else none
    | some (.ldB _) => if 0xFFF < s.I.toNat + 2 then some ⟨.memoryBounds, 0x1000⟩ else none
    | some (.ldVxI x) => if 0xFFF < s.I.toNat + x.val then some ⟨.memoryBounds, 0x1000⟩ else none
    | some _ => none

/-- R124: a cycle raises at most one fault, the first met in the order fetch bounds, decode, the instruction's own check. -/
def Obligations.FaultRecordFollowsPriority : Prop :=
  ∀ s t : State, Inv s → s.halted = false → step s = .next t →
    t.fault = firstFault s ∧ t.halted = (firstFault s).isSome

/-- R150: a run all of whose states meet the program obligations takes no fault, however long. -/
def Obligations.ObligationsKeepRunFaultFree : Prop :=
  ∀ (s : State) (n : Nat), Inv s → s.halted = false →
    (∀ k u, k ≤ n → Host.Core.run Sys2Proof.core k s = .next u → State.MeetsObligations u) →
    ∃ t, Host.Core.run Sys2Proof.core (n + 1) s = .next t ∧ State.halted t = false ∧ State.fault t = none

/-- R90: a completed cycle steps both timers once after Execute; a timer at 0 stays at 0. -/
def Obligations.CompletedCycleStepsTimers : Prop :=
  ∀ (s u : State) (i : Instr), s.Runs i → exec i s = .next u → u.halted = false →
    ∃ t, step s = .next t ∧ t.DT.toNat = u.DT.toNat - 1 ∧ t.ST.toNat = u.ST.toNat - 1 ∧
      SameBut [.DT, .ST, .soundExpired] u t

/-- R42: the event occurs in a cycle whose timer step takes ST from 1 to 0, once, and in no other. That it is counted is the
model's choice (assumption 3). -/
def Obligations.SoundExpiredOnlyFromOneToZero : Prop :=
  ∀ s t : State, step s = .next t →
    (t.soundExpired = s.soundExpired + 1 ∧ t.ST = 0 ∧
        ∃ i u, s.Runs i ∧ exec i s = .next u ∧ u.halted = false ∧ u.ST = 1) ∨
    (t.soundExpired = s.soundExpired ∧
        ∀ i u, s.Runs i → exec i s = .next u → u.halted = false → u.ST ≠ 1)

/-- R91, its count: over cycles that complete and do not write ST, the event is emitted exactly in cycle number ST; with ST = 0xFF
at reset that is the 255th. Rests on assumption 3 (the count). -/
def Obligations.SoundExpiresInCycleNumberST : Prop :=
  ∀ (f : Nat → State) (n : Nat),
    (∀ k < n, step (f k) = .next (f (k + 1)) ∧ (f (k + 1)).halted = false ∧ ∀ x, ¬ (f k).Runs (.ldStVx x)) →
    (f n).ST.toNat = (f 0).ST.toNat - n ∧
    (f n).soundExpired =
      (f 0).soundExpired + (if 1 ≤ (f 0).ST.toNat ∧ (f 0).ST.toNat ≤ n then 1 else 0)

/-! ## Control flow (41_control_flow.md) -/

/-- R94: RET. -/
def Obligations.RetPopsTheCallSite : Prop :=
  decodeWord 0x00EE = some .ret ∧
  ∀ s : State,
    (s.sp.toNat = 0 → ∃ t, exec .ret s = .next t ∧ Faulted s t .stackUnderflow 0x00EE) ∧
    (∀ j : Fin 16, s.sp.toNat = j.val + 1 →
      ∃ t, exec .ret s = .next t ∧ t.sp.toNat = j.val ∧ t.pc = s.stack[j.val] + 2 ∧ SameBut [.sp, .pc] s t)

/-- R95: JP addr. -/
def Obligations.JpSetsPc : Prop :=
  ∀ (nnn : BitVec 12) (s : State),
    decodeWord (0x1#4 ++ nnn) = some (.jp nnn) ∧
    ∃ t, exec (.jp nnn) s = .next t ∧ t.pc.toNat = nnn.toNat ∧ SameBut [.pc] s t

/-- R96: CALL addr. -/
def Obligations.CallPushesTheCallSite : Prop :=
  ∀ (nnn : BitVec 12) (s : State),
    decodeWord (0x2#4 ++ nnn) = some (.call nnn) ∧
    (s.sp.toNat = 16 → ∃ t, exec (.call nnn) s = .next t ∧ Faulted s t .stackOverflow (0x2#4 ++ nnn)) ∧
    (∀ j : Fin 16, s.sp.toNat = j.val →
      ∃ t, exec (.call nnn) s = .next t ∧ t.stack[j.val] = s.pc ∧
        (∀ k : Fin 16, k ≠ j → t.stack[k.val] = s.stack[k.val]) ∧
        t.sp.toNat = j.val + 1 ∧ t.pc.toNat = nnn.toNat ∧ SameBut [.stack, .sp, .pc] s t)

/-- The round trip of 90_conflicts.md C1: after a CALL at any legal depth, a RET in any state that still holds the call's slot and
depth resumes past the call site, at the depth before the call. -/
def Obligations.CallThenRetResumesPastTheCall : Prop :=
  ∀ (nnn : BitVec 12) (s : State), s.sp.toNat < 16 →
    ∃ t, exec (.call nnn) s = .next t ∧
      ∀ u : State, u.sp = t.sp → u.stack = t.stack →
        ∃ v, exec .ret u = .next v ∧ v.pc = s.pc + 2 ∧ v.sp = s.sp ∧
          ∀ k : Fin 16, k.val < s.sp.toNat → v.stack[k.val] = s.stack[k.val]

/-- The model's choice (assumption 5) for states that no run reaches (10_state.md R30): with sp above 16, CALL and RET name a
slot that does not exist and stop. -/
def Obligations.AbsentStackSlotStops : Prop :=
  ∀ (nnn : BitVec 12) (s : State), 16 < s.sp.toNat →
    exec (.call nnn) s = .fault (.noStackSlot s.sp.toNat) ∧ exec .ret s = .fault (.noStackSlot (s.sp.toNat - 1))

/-- R97 and R98: SE and SNE. -/
def Obligations.SkipsCompareRegisterWithByte : Prop :=
  ∀ (x : Reg) (kk : Byte) (s : State),
    decodeWord (0x3#4 ++ regBits x ++ kk) = some (.seImm x kk) ∧
    decodeWord (0x4#4 ++ regBits x ++ kk) = some (.sneImm x kk) ∧
    (∃ t, exec (.seImm x kk) s = .next t ∧ SameBut [.pc] s t ∧
      (s.getV x = kk → t.pc = s.pc + 4) ∧ (s.getV x ≠ kk → t.pc = s.pc + 2)) ∧
    (∃ t, exec (.sneImm x kk) s = .next t ∧ SameBut [.pc] s t ∧
      (s.getV x ≠ kk → t.pc = s.pc + 4) ∧ (s.getV x = kk → t.pc = s.pc + 2))

/-! ## Register loads and arithmetic (42_register_arith.md) -/

/-- An instruction that completes by writing one register, and advances. -/
def Sys2Proof.Machine.WritesOneReg (i : Instr) (s : State) (x : Reg) (v : Byte) : Prop :=
  ∃ t, exec i s = .next t ∧ t.getV x = v ∧ SameRegsBut [x] s t ∧ t.pc = s.pc + 2 ∧ SameBut [.V, .pc] s t

/-- R99 to R102: LD Vx,byte, ADD Vx,byte, LD Vx,Vy and AND write V[x] and no flag. -/
def Obligations.LoadsAndPlainArithmeticWriteVxOnly : Prop :=
  ∀ (x y : Reg) (kk : Byte) (s : State),
    (decodeWord (0x6#4 ++ regBits x ++ kk) = some (.ldImm x kk) ∧ WritesOneReg (.ldImm x kk) s x kk) ∧
    (decodeWord (0x7#4 ++ regBits x ++ kk) = some (.addImm x kk) ∧
      WritesOneReg (.addImm x kk) s x (BitVec.ofNat 8 (((s.getV x).toNat + kk.toNat) % 256))) ∧
    (decodeWord (0x8#4 ++ regBits x ++ regBits y ++ 0x0#4) = some (.ldReg x y) ∧
      WritesOneReg (.ldReg x y) s x (s.getV y)) ∧
    (decodeWord (0x8#4 ++ regBits x ++ regBits y ++ 0x2#4) = some (.andReg x y) ∧
      WritesOneReg (.andReg x y) s x (s.getV x &&& s.getV y))

/-- R103: ADD Vx,Vy; for x = F the sum stays and the carry is lost. -/
def Obligations.AddWritesCarryThenSum : Prop :=
  ∀ (x y : Reg) (s : State),
    decodeWord (0x8#4 ++ regBits x ++ regBits y ++ 0x4#4) = some (.addReg x y) ∧
    ∃ t, exec (.addReg x y) s = .next t ∧
      (t.getV x).toNat = ((s.getV x).toNat + (s.getV y).toNat) % 256 ∧
      (x ≠ VF → t.getV VF = if 255 < (s.getV x).toNat + (s.getV y).toNat then 1 else 0) ∧
      SameRegsBut [x, VF] s t ∧ t.pc = s.pc + 2 ∧ SameBut [.V, .pc] s t

/-- R104: SUB Vx,Vy under both values of VF_OPERAND_ORDER; f is the flag, V[x] > V[y] before the instruction. -/
def Obligations.SubWritesGreaterThenDifference : Prop :=
  ∀ (x y : Reg) (s : State),
    decodeWord (0x8#4 ++ regBits x ++ regBits y ++ 0x5#4) = some (.subReg x y) ∧
    ∃ t f, exec (.subReg x y) s = .next t ∧
      f = (if (s.getV y).toNat < (s.getV x).toNat then 1 else 0 : Byte) ∧
      (x ≠ VF → t.getV VF = f) ∧
      (s.config.vfOperandOrder = .latched → t.getV x = s.getV x - s.getV y) ∧
      (s.config.vfOperandOrder = .sequential →
        (x ≠ VF → y ≠ VF → t.getV x = s.getV x - s.getV y) ∧ (x = VF → y ≠ VF → t.getV x = f - s.getV y) ∧
        (x ≠ VF → y = VF → t.getV x = s.getV x - f) ∧ (x = VF → y = VF → t.getV x = 0)) ∧
      SameRegsBut [x, VF] s t ∧ t.pc = s.pc + 2 ∧ SameBut [.V, .pc] s t

/-- R105: RND masks the byte it draws. The byte is the free value of assumption 2, of which nothing is known; a bit clear in kk is
clear in the result whatever it is. -/
def Obligations.RndMasksAFreeByte : Prop :=
  ∀ (x : Reg) (kk : Byte) (s : State),
    decodeWord (0xC#4 ++ regBits x ++ kk) = some (.rnd x kk) ∧
    ∃ t, exec (.rnd x kk) s = .next t ∧ t.getV x = Config.rndByte s.rndDraws &&& kk ∧
      (∀ b, kk.getLsbD b = false → (t.getV x).getLsbD b = false) ∧ t.rndDraws = s.rndDraws + 1 ∧
      SameRegsBut [x] s t ∧ t.pc = s.pc + 2 ∧ SameBut [.V, .pc, .rndDraws] s t

/-! ## Index register and memory (43_index_memory.md) -/

/-- R106 and R107: LD I and LD F. -/
def Obligations.IndexLoadsSetI : Prop :=
  ∀ (nnn : BitVec 12) (x : Reg) (s : State),
    decodeWord (0xA#4 ++ nnn) = some (.ldI nnn) ∧
    decodeWord (0xF#4 ++ regBits x ++ 0x29#8) = some (.ldF x) ∧
    (∃ t, exec (.ldI nnn) s = .next t ∧ t.I.toNat = nnn.toNat ∧ t.pc = s.pc + 2 ∧ SameBut [.I, .pc] s t) ∧
    (∃ t, exec (.ldF x) s = .next t ∧ t.I.toNat = (s.getV x).toNat * 5 ∧ t.pc = s.pc + 2 ∧ SameBut [.I, .pc] s t)

/-- R108: LD B stores the three decimal digits at I, I + 1 and I + 2, or faults past memory and stores nothing. That memory is and
stays canonical is about the model's form of it (assumption 8). -/
def Obligations.LdBStoresDecimalDigits : Prop :=
  ∀ (x : Reg) (s : State), s.mem.wf →
    decodeWord (0xF#4 ++ regBits x ++ 0x33#8) = some (.ldB x) ∧
    (0xFFF < s.I.toNat + 2 → ∃ t, exec (.ldB x) s = .next t ∧ Faulted s t .memoryBounds 0x1000) ∧
    (s.I.toNat + 2 ≤ 0xFFF →
      ∃ t, exec (.ldB x) s = .next t ∧
        (t.mem.read s.I.toNat).toNat = (s.getV x).toNat / 100 ∧
        (t.mem.read (s.I.toNat + 1)).toNat = (s.getV x).toNat / 10 % 10 ∧
        (t.mem.read (s.I.toNat + 2)).toNat = (s.getV x).toNat % 10 ∧
        (∀ a, a < s.I.toNat ∨ s.I.toNat + 2 < a → t.mem.read a = s.mem.read a) ∧
        t.mem.wf ∧ t.pc = s.pc + 2 ∧ SameBut [.mem, .pc] s t)

/-- R109: LD Vx,[I] loads V0 to V[x] from I to I + x, and leaves I. -/
def Obligations.LdVxILoadsRegisters : Prop :=
  ∀ (x : Reg) (s : State),
    decodeWord (0xF#4 ++ regBits x ++ 0x65#8) = some (.ldVxI x) ∧
    (0xFFF < s.I.toNat + x.val → ∃ t, exec (.ldVxI x) s = .next t ∧ Faulted s t .memoryBounds 0x1000) ∧
    (s.I.toNat + x.val ≤ 0xFFF →
      ∃ t, exec (.ldVxI x) s = .next t ∧
        (∀ r : Reg, r.val ≤ x.val → t.getV r = s.mem.read (s.I.toNat + r.val)) ∧
        (∀ r : Reg, x.val < r.val → t.getV r = s.getV r) ∧
        t.pc = s.pc + 2 ∧ SameBut [.V, .pc] s t)

/-! ## Sprite draw (44_draw.md) -/

/-- The sprite of n rows at I has a set bit that goes to cell k from the origin (vx, vy) (R110). -/
def Sys2Proof.Machine.SpriteHits (s : State) (vx vy : Byte) (n : Nat) (k : Fin 2048) : Prop :=
  ∃ row col, row < n ∧ col < 8 ∧ (s.mem.read (s.I.toNat + row)).getLsbD (7 - col) = true ∧
    ((vx.toNat + col) + (vy.toNat + row) * 64) % 2048 = k.val

/-- R110, its exceptions and completion under both operand orders: DRW faults past memory with nothing written; else it completes,
writes no register but VF, which ends 0 or 1, and sets the draw flag, for n = 0 too. -/
def Obligations.DrwFaultsPastMemoryElseCompletes : Prop :=
  ∀ (x y : Reg) (n : Nat) (s : State),
    (n < 16 → decodeWord (0xD#4 ++ regBits x ++ regBits y ++ BitVec.ofNat 4 n) = some (.drw x y n)) ∧
    (1 ≤ n → 0xFFF < s.I.toNat + n - 1 →
      ∃ t, exec (.drw x y n) s = .next t ∧ Faulted s t .memoryBounds 0x1000) ∧
    (n = 0 ∨ s.I.toNat + n - 1 ≤ 0xFFF →
      ∃ t, exec (.drw x y n) s = .next t ∧ t.draw = true ∧ (t.getV VF = 0 ∨ t.getV VF = 1) ∧
        (n = 0 → t.getV VF = 0 ∧ ∀ k, t.getFb k = s.getFb k) ∧
        SameRegsBut [VF] s t ∧ t.pc = s.pc + 2 ∧ SameBut [.V, .fb, .draw, .pc] s t)

/-- What R110's algorithm amounts to under LATCHED, or where neither operand is VF (R111): the cells under a set bit flip, each
once, the others stay, and VF is 1 iff one of them was 1. -/
def Obligations.DrwFlipsExactlyTheSpriteCells : Prop :=
  ∀ (x y : Reg) (n : Nat) (s : State), n < 16 → (n = 0 ∨ s.I.toNat + n - 1 ≤ 0xFFF) →
    (s.config.vfOperandOrder = .latched ∨ (x ≠ VF ∧ y ≠ VF)) →
    ∃ t, exec (.drw x y n) s = .next t ∧
      (∀ k, SpriteHits s (s.getV x) (s.getV y) n k → t.getFb k = !s.getFb k) ∧
      (∀ k, ¬ SpriteHits s (s.getV x) (s.getV y) n k → t.getFb k = s.getFb k) ∧
      ((∃ k, SpriteHits s (s.getV x) (s.getV y) n k ∧ s.getFb k = true) → t.getV VF = 1) ∧
      ((¬ ∃ k, SpriteHits s (s.getV x) (s.getV y) n k ∧ s.getFb k = true) → t.getV VF = 0) ∧
      SameRegsBut [VF] s t ∧ t.draw = true ∧ t.pc = s.pc + 2 ∧ SameBut [.V, .fb, .draw, .pc] s t

/-- The sprite bits of n rows in drawing order: row by row, the most significant bit first (R110). -/
def Sys2Proof.Machine.spriteBits (n : Nat) : List (Nat × Nat) :=
  (List.range n).flatMap fun row => (List.range 8).map fun col => (row, col)

/-- One sprite bit under SEQUENTIAL, on the cells and the collision so far: VF named as an operand reads that collision. -/
def Sys2Proof.Machine.sequentialBit (s : State) (x y : Reg) (a : (Fin 2048 → Bool) × Bool) (p : Nat × Nat) :
    (Fin 2048 → Bool) × Bool :=
  if (s.mem.read (s.I.toNat + p.1)).getLsbD (7 - p.2) then
    let vf := if a.2 then 1 else 0
    let ox := if x = VF then vf else (s.getV x).toNat
    let oy := if y = VF then vf else (s.getV y).toNat
    let k : Fin 2048 := ⟨((ox + p.2) + (oy + p.1) * 64) % 2048, Nat.mod_lt _ (by decide)⟩
    (fun j => if j = k then !a.1 j else a.1 j, a.2 || a.1 k)
  else a

/-- R110 under SEQUENTIAL: V[x] and V[y] are read at each set bit, and VF then reads 0 before the first collision and 1 after
it. -/
def Obligations.DrwSequentialReadsVfAsCollisionSoFar : Prop :=
  ∀ (x y : Reg) (n : Nat) (s : State), (n = 0 ∨ s.I.toNat + n - 1 ≤ 0xFFF) →
    s.config.vfOperandOrder = .sequential →
    ∃ t, exec (.drw x y n) s = .next t ∧
      (∀ k, t.getFb k = ((spriteBits n).foldl (sequentialBit s x y) (s.getFb, false)).1 k) ∧
      t.getV VF = if ((spriteBits n).foldl (sequentialBit s x y) (s.getFb, false)).2 then 1 else 0

/-- R111, XOR involution, under LATCHED or where neither operand is VF (under SEQUENTIAL a DRW that names VF moves its origin while
it draws): the same sprite drawn twice from the same origin, with no other change to the cells between, restores every cell, and
the second draw reports a collision iff some reached cell was 0 before the first. -/
def Obligations.DrawingTwiceRestoresTheFramebuffer : Prop :=
  ∀ (x y : Reg) (n : Nat) (s t u : State), n < 16 → (n = 0 ∨ s.I.toNat + n - 1 ≤ 0xFFF) →
    (s.config.vfOperandOrder = .latched ∨ (x ≠ VF ∧ y ≠ VF)) → u.config = s.config →
    exec (.drw x y n) s = .next t →
    (∀ k, u.getFb k = t.getFb k) → u.getV x = s.getV x → u.getV y = s.getV y → u.I = s.I →
    (∀ row, row < n → u.mem.read (s.I.toNat + row) = s.mem.read (s.I.toNat + row)) →
    ∃ v, exec (.drw x y n) u = .next v ∧ (∀ k, v.getFb k = s.getFb k) ∧
      (v.getV VF = 1 ↔ ∃ k, SpriteHits s (s.getV x) (s.getV y) n k ∧ s.getFb k = false)

/-- R111: where a sprite bit lands, and that two bits of one DRW land on distinct cells. -/
def Obligations.SpriteBitCoordinates : Prop :=
  ∀ (vx vy : Byte) (row col : Nat),
    (cellIndex vx vy row col).val % 64 = (vx.toNat + col) % 64 ∧
    (cellIndex vx vy row col).val / 64 = ((vy.toNat + row) + (vx.toNat + col) / 64) % 32 ∧
    ∀ row' col', row < 15 → row' < 15 → col < 8 → col' < 8 →
      cellIndex vx vy row col = cellIndex vx vy row' col' → row = row' ∧ col = col'

/-! ## Key input and timers (45_input_timers.md) -/

/-- R112: SKNP. -/
def Obligations.SknpSkipsIfKeyReleased : Prop :=
  ∀ (x : Reg) (s : State),
    decodeWord (0xE#4 ++ regBits x ++ 0xA1#8) = some (.sknp x) ∧
    (0xF < (s.getV x).toNat →
      ∃ t, exec (.sknp x) s = .next t ∧ Faulted s t .keyIndex ((s.getV x).setWidth 16)) ∧
    (∀ k : Fin 16, (s.getV x).toNat = k.val →
      ∃ t, exec (.sknp x) s = .next t ∧ SameBut [.pc] s t ∧
        (s.getKey k = false → t.pc = s.pc + 4) ∧ (s.getKey k = true → t.pc = s.pc + 2))

/-- R113, R114 and R115: the timer transfers, before the timer step of their cycle. -/
def Obligations.TimerTransfersMoveOneByte : Prop :=
  ∀ (x : Reg) (s : State),
    decodeWord (0xF#4 ++ regBits x ++ 0x07#8) = some (.ldVxDt x) ∧
    decodeWord (0xF#4 ++ regBits x ++ 0x15#8) = some (.ldDtVx x) ∧
    decodeWord (0xF#4 ++ regBits x ++ 0x18#8) = some (.ldStVx x) ∧
    WritesOneReg (.ldVxDt x) s x s.DT ∧
    (∃ t, exec (.ldDtVx x) s = .next t ∧ t.DT = s.getV x ∧ t.pc = s.pc + 2 ∧ SameBut [.DT, .pc] s t) ∧
    (∃ t, exec (.ldStVx x) s = .next t ∧ t.ST = s.getV x ∧ t.pc = s.pc + 2 ∧ SameBut [.ST, .pc] s t)

/-- R149: a timer write interacts with the timer step of its own cycle, and the event of R42 can occur in it. -/
def Obligations.TimerWriteCountsDownInItsOwnCycle : Prop :=
  ∀ (x : Reg) (s : State),
    (s.Runs (.ldDtVx x) → ∃ t, step s = .next t ∧ t.DT.toNat = (s.getV x).toNat - 1 ∧ t.ST.toNat = s.ST.toNat - 1) ∧
    (s.Runs (.ldStVx x) →
      ∃ t, step s = .next t ∧ t.ST.toNat = (s.getV x).toNat - 1 ∧ t.DT.toNat = s.DT.toNat - 1 ∧
        t.soundExpired = s.soundExpired + (if s.getV x = 1 then 1 else 0)) ∧
    (s.Runs (.ldVxDt x) → ∃ t, step s = .next t ∧ t.getV x = s.DT ∧ t.DT.toNat = s.DT.toNat - 1)

/-! ## Rules of the whole machine -/

/-- The registers an instruction may write (10_state.md R23): none, its x, VF as a flag, or V0 to V[x]. -/
def Sys2Proof.Machine.MayWriteReg (i : Instr) (r : Reg) : Prop :=
  match i with
  | .ldImm x _ | .addImm x _ | .ldReg x _ | .andReg x _ | .rnd x _ | .ldVxDt x => r = x
  | .addReg x _ | .subReg x _ => r = x ∨ r = VF
  | .drw _ _ _ => r = VF
  | .ldVxI x => r.val ≤ x.val
  | .ret | .jp _ | .call _ | .seImm _ _ | .sneImm _ _ | .ldI _ | .sknp _ | .ldDtVx _ | .ldStVx _ | .ldF _ | .ldB _ => False

/-- The instructions that have a fault check of their own (60_exceptions.md R124). -/
def Sys2Proof.Machine.HasCheck (i : Instr) : Prop :=
  i = .ret ∨ (∃ nnn, i = .call nnn) ∨ (∃ x, i = .sknp x) ∨ (∃ x y n, i = .drw x y n) ∨ (∃ x, i = .ldB x) ∨ ∃ x, i = .ldVxI x

/-- Who writes what, for every part of the state but pc: 10_state.md R23 (registers), R24 (I), R29 (stack), R30 (sp), R32 and R33
(timers), R37 (framebuffer), R39 (key latch), R40 (draw flag), 20_memory.md R49 (memory), and 10_state.md R41 with
60_exceptions.md R124 (run status). The clauses on soundExpired, rndDraws and config are about the model's own fields
(assumptions 3, 2 and 1). -/
def Obligations.OnlyNamedInstructionsWriteEachPart : Prop :=
  ∀ (i : Instr) (s t : State), exec i s = .next t →
    (∀ r, t.getV r ≠ s.getV r → MayWriteReg i r) ∧
    (t.I ≠ s.I → (∃ nnn, i = .ldI nnn) ∨ ∃ x, i = .ldF x) ∧
    (t.stack ≠ s.stack → ∃ nnn, i = .call nnn) ∧
    (t.sp ≠ s.sp → i = .ret ∨ ∃ nnn, i = .call nnn) ∧
    (t.DT ≠ s.DT → ∃ x, i = .ldDtVx x) ∧
    (t.ST ≠ s.ST → ∃ x, i = .ldStVx x) ∧
    (t.fb ≠ s.fb → ∃ x y n, i = .drw x y n) ∧
    (t.draw ≠ s.draw → ∃ x y n, i = .drw x y n) ∧
    (t.mem ≠ s.mem → ∃ x, i = .ldB x) ∧
    t.key = s.key ∧
    (t.halted ≠ s.halted → HasCheck i) ∧ (t.fault ≠ s.fault → HasCheck i) ∧
    t.soundExpired = s.soundExpired ∧
    (t.rndDraws ≠ s.rndDraws → ∃ x kk, i = .rnd x kk) ∧
    t.config = s.config

/-- R43: VF is written as a flag only by ADD Vx,Vy, SUB Vx,Vy and DRW; any other instruction that changes it names it as its
destination register (10_state.md R23). -/
def Obligations.VfIsWrittenAsFlagOnlyByThree : Prop :=
  ∀ (i : Instr) (s t : State), exec i s = .next t → t.getV VF ≠ s.getV VF →
    (∃ x y, i = .addReg x y) ∨ (∃ x y, i = .subReg x y) ∨ (∃ x y n, i = .drw x y n) ∨
    (∃ kk, i = .ldImm VF kk) ∨ (∃ kk, i = .addImm VF kk) ∨ (∃ y, i = .ldReg VF y) ∨ (∃ y, i = .andReg VF y) ∨
    (∃ kk, i = .rnd VF kk) ∨ i = .ldVxDt VF ∨ i = .ldVxI VF

/-- R40: the draw flag is set by every DRW that completes, never cleared by the core, cleared by the host alone, false after
reset. -/
def Obligations.DrawFlagSetByDrwClearedByHost : Prop :=
  (∀ s t : State, step s = .next t →
    (s.draw = true → t.draw = true) ∧
    (t.draw ≠ s.draw → ∃ x y n, s.Runs (.drw x y n)) ∧
    (∀ x y n, s.Runs (.drw x y n) → t.halted = false → t.draw = true)) ∧
  (∀ (s : State) (a : HostAct), (s.hostAct a).draw = if a = .clearDraw then false else s.draw) ∧
  ∀ c, (State.construct c).draw = false

/-- R47: every piece of state after construction, for any parameters; reset is construction with the defaults of 00_scope.md R6. -/
def Obligations.ConstructionGivesTheListedValues : Prop :=
  (∀ c : Config, (∀ a, (State.construct c).mem.read a = 0) ∧ (∀ r, (State.construct c).getV r = 0) ∧
    (State.construct c).I = 0 ∧ (State.construct c).pc = 0x200 ∧
    (∀ j : Fin 16, (State.construct c).stack[j.val] = 0) ∧ (State.construct c).sp = 0 ∧
    (State.construct c).DT = 0 ∧ (State.construct c).ST = c.stReset ∧
    (∀ k, (State.construct c).getFb k = false) ∧ (State.construct c).draw = false ∧
    (∀ k, (State.construct c).getKey k = false) ∧
    (State.construct c).halted = false ∧ (State.construct c).fault = none) ∧
  State.reset = State.construct Config.default ∧ State.reset.ST = 0xFF

/-- The invariant holds after construction with any parameters, reset among them. The canonical form of memory in it is the
model's (assumption 8). -/
def Obligations.InvHoldsAfterConstruction : Prop := (∀ c, Inv (State.construct c)) ∧ Inv State.reset

/-- Every cycle keeps the invariant, from every state that meets it. The canonical form of memory in it is the model's
(assumption 8). -/
def Obligations.StepKeepsInv : Prop := ∀ s t : State, Inv s → step s = .next t → Inv t

/-- The ranges of 10_state.md R25, R27, R30, R31 and R41 hold of every state a machine reaches, whatever its parameters, its program
and the host's acts between cycles. What a machine reaches is the model's `Reachable` (assumption 10), and the canonical form of
memory in `Inv` is the model's (assumption 8). -/
def Obligations.ReachableStatesKeepTheRanges : Prop :=
  ∀ s : State, Reachable s →
    s.I.toNat ≤ 0xFFF ∧ (∀ j : Fin 16, s.stack[j.val].toNat ≤ 0xFFE) ∧ Inv s

/-- From a state that meets the invariant every cycle answers a next state: no run is ever stuck. -/
def Obligations.EveryCycleAnswersANextState : Prop := ∀ s : State, Inv s → ∃ t, step s = .next t

/-- The state with another value of VF_OPERAND_ORDER. -/
def Sys2Proof.Machine.State.withOrder (s : State) (o : OperandOrder) : State :=
  { s with config := { s.config with vfOperandOrder := o } }

/-- R88: the two values of VF_OPERAND_ORDER give different results only for SUB and DRW that name VF; and for SUB with x = F they
do differ (the vector V-AR20's operands, 10 and 03). The clause on a fault is about the model's own stop noStackSlot
(assumption 5). -/
def Obligations.OperandOrderMattersOnlyForSubAndDrwNamingVf : Prop :=
  (∀ (i : Instr) (s : State) (o : OperandOrder),
    (∀ x y, i = .subReg x y → x ≠ VF ∧ y ≠ VF) → (∀ x y n, i = .drw x y n → x ≠ VF ∧ y ≠ VF) →
    (∀ t, exec i s = .next t → exec i (s.withOrder o) = .next (t.withOrder o)) ∧
    (∀ r, exec i s = .fault r → exec i (s.withOrder o) = .fault r)) ∧
  ∀ s : State, s.getV VF = 0x10 → s.getV 1 = 0x03 →
    ∃ t u, exec (.subReg VF 1) (s.withOrder .latched) = .next t ∧
      exec (.subReg VF 1) (s.withOrder .sequential) = .next u ∧ t.getV VF = 0x0D ∧ u.getV VF = 0xFE

/-- 60_exceptions.md R131, 10_state.md R39: a program reaches the key latch only through SKNP. -/
def Obligations.KeyLatchIsReadOnlyBySknp : Prop :=
  ∀ (i : Instr) (s t : State) (key : Vector Bool 16), (∀ x, i ≠ .sknp x) → exec i s = .next t →
    exec i { s with key := key } = .next { t with key := key }

/-- 10_state.md R33: no instruction reads the sound timer. -/
def Obligations.SoundTimerIsNeverRead : Prop :=
  ∀ (i : Instr) (s t : State) (v : Byte), exec i s = .next t →
    ∃ u, exec i { s with ST := v } = .next u ∧ SameBut [.ST] t u ∧
      ((∃ x, i = .ldStVx x) → u.ST = t.ST) ∧ ((∀ x, i ≠ .ldStVx x) → u.ST = v)

/-- R64, R146: a byte stored by LD B is seen by the very next fetch, at I = pc + 2. -/
def Obligations.StoredDigitsAreFetchedNext : Prop :=
  ∀ (x : Reg) (s : State), s.mem.wf → s.Runs (.ldB x) → s.I.toNat = s.pc.toNat + 2 → s.I.toNat + 2 ≤ 0xFFF →
    ∃ t w, step s = .next t ∧ t.fetch = .ok w ∧
      w.toNat = (s.getV x).toNat / 100 * 256 + (s.getV x).toNat / 10 % 10

/-- R93: from a parked state, running or halted, every later cycle changes only DT, ST and the event, and leaves the machine
parked. That the event is a count in the state is the model's choice (assumption 3). -/
def Obligations.ParkedMachineStaysParked : Prop :=
  ∀ (s : State) (a k : Nat), s.ParkedAt a →
    ∃ t, Host.Core.run Sys2Proof.core k s = .next t ∧ State.ParkedAt t a ∧ SameBut [.DT, .ST, .soundExpired] s t

/-! ## Reset, boot and the host (70_reset_and_hazards.md, 10_state.md) -/

/-- R138 and R139: the two loads place their bytes and change nothing else, a second load of the font included; a program longer
than 3584 bytes and a source that cannot be read are load faults. -/
def Obligations.LoadsPlaceTheirBytes : Prop :=
  ∀ s : State, s.mem.wf →
    ((∀ j : Fin 80, s.loadFontset.mem.read j.val = s.config.font[j.val]) ∧
      (∀ a, 80 ≤ a → s.loadFontset.mem.read a = s.mem.read a) ∧
      (∀ a, s.loadFontset.loadFontset.mem.read a = s.loadFontset.mem.read a) ∧ SameBut [.mem] s s.loadFontset) ∧
    (∀ bytes : List Byte, bytes.length ≤ 3584 →
      ∃ t, s.loadProgram (some bytes) = .ok t ∧
        (∀ (j : Nat) (h : j < bytes.length), t.mem.read (0x200 + j) = bytes[j]) ∧
        (∀ a, a < 0x200 ∨ 0x200 + bytes.length ≤ a → t.mem.read a = s.mem.read a) ∧ SameBut [.mem] s t) ∧
    (∀ bytes : List Byte, 3584 < bytes.length → s.loadProgram (some bytes) = .error (.tooLong bytes.length)) ∧
    s.loadProgram none = .error .sourceUnavailable

/-- R140: the launch state, and that the order of the two loads does not change it. -/
def Obligations.BootGivesTheLaunchState : Prop :=
  ∀ (c : Config) (bytes : List Byte), bytes.length ≤ 3584 →
    ∃ t, boot c bytes = .ok t ∧
      (∀ j : Fin 80, t.mem.read j.val = c.font[j.val]) ∧
      (∀ (j : Nat) (h : j < bytes.length), t.mem.read (0x200 + j) = bytes[j]) ∧
      (∀ a, 80 ≤ a → a < 0x200 ∨ 0x200 + bytes.length ≤ a → t.mem.read a = 0) ∧
      SameBut [.mem] (State.construct c) t ∧
      ∃ u, (State.construct c).loadProgram (some bytes) = .ok u ∧ u.loadFontset = t

/-- R143: what the host may change between cycles, and nothing else. -/
def Obligations.HostActsChangeOnlyKeysAndDrawFlag : Prop :=
  ∀ s : State,
    (∀ (k : Fin 16) (b : Bool), (s.hostAct (.writeKey k b)).getKey k = b ∧
      (∀ j, j ≠ k → (s.hostAct (.writeKey k b)).getKey j = s.getKey j) ∧ SameBut [.key] s (s.hostAct (.writeKey k b))) ∧
    (s.hostAct .clearDraw).draw = false ∧ SameBut [.draw] s (s.hostAct .clearDraw)

/-- Two canonical memories that read alike are equal: equal memories are equal data. -/
def Obligations.CanonicalMemoriesThatReadAlikeAreEqual : Prop :=
  ∀ m m' : Memory, m.wf → m'.wf → (∀ a, a ≤ 0xFFF → m.read a = m'.read a) → m = m'

/-- The word that the host places is the one the next cycle fetches (assumption 9). -/
def Obligations.PlacedWordIsFetchedNext : Prop :=
  ∀ (s : State) (w : Nat), s.mem.wf →
    (s.withFetchWord 16 w).halted = false ∧ (s.withFetchWord 16 w).mem.wf ∧
    (s.withFetchWord 16 w).fetch = .ok (BitVec.ofNat 16 w) ∧
    decodeTableWord 16 w = decodeWord (BitVec.ofNat 16 w)
end

