-- ==== Sys2Proof/Laws/Decode.lean ====
section
/-! SUPPORT. The fields and the row of a word built in one of the formats, and that a row of the table is found by any word it
selects. -/

namespace Sys2Proof

/-! ## Fields of a formatted word (30_encoding.md R68, R69) -/

theorem regBits_toNat (r : Reg) : (regBits r).toNat = r.val := by
  simp [regBits]

@[simp] theorem fieldNnn_addrWord (n1 : Nibble) (nnn : BitVec 12) : fieldNnn (addrWord n1 nnn) = nnn :=
  BitVec.extractLsb'_append_eq_right

@[simp] theorem fieldKk_regByteWord (n1 : Nibble) (x : Reg) (kk : Byte) : fieldKk (regByteWord n1 x kk) = kk :=
  BitVec.extractLsb'_append_eq_right

@[simp] theorem fieldX_regByteWord (n1 : Nibble) (x : Reg) (kk : Byte) : fieldX (regByteWord n1 x kk) = x := by
  have h : (regByteWord n1 x kk).extractLsb' 8 4 = regBits x := by
    unfold regByteWord
    rw [BitVec.extractLsb'_append_eq_of_le (by decide : 8 ≤ 8), BitVec.extractLsb'_append_eq_right]
  simp [fieldX, h, regBits_toNat]

@[simp] theorem fieldX_regRegWord (n1 : Nibble) (x y : Reg) (n4 : Nibble) : fieldX (regRegWord n1 x y n4) = x := by
  have h : (regRegWord n1 x y n4).extractLsb' 8 4 = regBits x := by
    unfold regRegWord
    rw [BitVec.extractLsb'_append_eq_of_le (by decide : 4 ≤ 8), BitVec.extractLsb'_append_eq_of_le (by decide : 4 ≤ 4),
      BitVec.extractLsb'_append_eq_right]
  simp [fieldX, h, regBits_toNat]

@[simp] theorem fieldY_regRegWord (n1 : Nibble) (x y : Reg) (n4 : Nibble) : fieldY (regRegWord n1 x y n4) = y := by
  have h : (regRegWord n1 x y n4).extractLsb' 4 4 = regBits y := by
    unfold regRegWord
    rw [BitVec.extractLsb'_append_eq_of_le (by decide : 4 ≤ 4), BitVec.extractLsb'_append_eq_right]
  simp [fieldY, h, regBits_toNat]

@[simp] theorem fieldN_regRegWord (n1 : Nibble) (x y : Reg) (n4 : Nibble) : fieldN (regRegWord n1 x y n4) = n4.toNat := by
  have h : (regRegWord n1 x y n4).extractLsb' 0 4 = n4 := BitVec.extractLsb'_append_eq_right
  simp [fieldN, h]

/-! ## The masks on a formatted word -/

/-- A field masked by zeros is zero. -/
theorem ofNat_and_zero {n : Nat} (a : BitVec n) : a &&& (0 : BitVec n) = 0 := BitVec.and_zero

/-- Mask F000 keeps n1. -/
theorem addrWord_and (n1 : Nibble) (nnn : BitVec 12) : addrWord n1 nnn &&& 0xF000 = n1 ++ (0 : BitVec 12) := by
  have m : (0xF000 : Word) = BitVec.allOnes 4 ++ (0 : BitVec 12) := by decide
  rw [m, addrWord, BitVec.and_append, BitVec.and_allOnes, ofNat_and_zero]

/-- Mask F000 keeps n1. -/
theorem regByteWord_and (n1 : Nibble) (x : Reg) (kk : Byte) :
    regByteWord n1 x kk &&& 0xF000 = n1 ++ (0 : Nibble) ++ (0 : Byte) := by
  have m : (0xF000 : Word) = BitVec.allOnes 4 ++ (0 : Nibble) ++ (0 : Byte) := by decide
  rw [m, regByteWord, BitVec.and_append, BitVec.and_append, BitVec.and_allOnes, ofNat_and_zero, ofNat_and_zero]

/-- Mask F0FF keeps n1 and the function byte. -/
theorem regByteWord_and_fn (n1 : Nibble) (x : Reg) (kk : Byte) :
    regByteWord n1 x kk &&& 0xF0FF = n1 ++ (0 : Nibble) ++ kk := by
  have m : (0xF0FF : Word) = BitVec.allOnes 4 ++ (0 : Nibble) ++ BitVec.allOnes 8 := by decide
  rw [m, regByteWord, BitVec.and_append, BitVec.and_append, BitVec.and_allOnes, BitVec.and_allOnes, ofNat_and_zero]

/-- Mask F00F keeps n1 and n4. -/
theorem regRegWord_and_fn (n1 : Nibble) (x y : Reg) (n4 : Nibble) :
    regRegWord n1 x y n4 &&& 0xF00F = n1 ++ (0 : Nibble) ++ (0 : Nibble) ++ n4 := by
  have m : (0xF00F : Word) = BitVec.allOnes 4 ++ (0 : Nibble) ++ (0 : Nibble) ++ BitVec.allOnes 4 := by decide
  rw [m, regRegWord, BitVec.and_append, BitVec.and_append, BitVec.and_append, BitVec.and_allOnes, BitVec.and_allOnes, ofNat_and_zero, ofNat_and_zero]

/-- Mask F000 keeps n1. -/
theorem regRegWord_and (n1 : Nibble) (x y : Reg) (n4 : Nibble) :
    regRegWord n1 x y n4 &&& 0xF000 = n1 ++ (0 : Nibble) ++ (0 : Nibble) ++ (0 : Nibble) := by
  have m : (0xF000 : Word) = BitVec.allOnes 4 ++ (0 : Nibble) ++ (0 : Nibble) ++ (0 : Nibble) := by decide
  rw [m, regRegWord, BitVec.and_append, BitVec.and_append, BitVec.and_append, BitVec.and_allOnes, ofNat_and_zero, ofNat_and_zero, ofNat_and_zero]

/-! ## Rows (30_encoding.md R74) -/

/-- Two rows whose patterns differ under both masks are never selected by one word. -/
def Row.disjoint (a b : Row) : Bool := (a.mask &&& b.mask) &&& a.pattern != (a.mask &&& b.mask) &&& b.pattern

theorem Row.not_selects_of_disjoint {a b : Row} {w : Word} (h : a.disjoint b = true) (ha : a.selects w = true) :
    b.selects w = false := by
  simp only [Row.disjoint, bne_iff_ne, ne_eq] at h
  simp only [Row.selects, beq_iff_eq] at ha
  simp only [Row.selects, beq_eq_false_iff_ne, ne_eq]
  intro hb
  apply h
  rw [← ha, ← hb]
  ext i
  simp only [BitVec.getElem_and]
  cases a.mask[i] <;> cases b.mask[i] <;> simp

theorem opcodeTable_disjoint : ∀ a ∈ opcodeTable, ∀ b ∈ opcodeTable, a = b ∨ a.disjoint b = true := by decide

/-- The decoder finds the row that a word selects. -/
theorem decodeWord_of_selects {r : Row} {w : Word} (hr : r ∈ opcodeTable) (h : r.selects w = true) :
    decodeWord w = some (assemble r.op w) := by
  have hf : opcodeTable.find? (·.selects w) = some r := by
    cases hc : opcodeTable.find? (·.selects w) with
    | none => exact absurd h (by simpa using List.find?_eq_none.mp hc r hr)
    | some q =>
      have hq : q.selects w = true := by simpa using List.find?_some hc
      rcases opcodeTable_disjoint q (List.mem_of_find?_eq_some hc) r hr with e | d
      · rw [e]
      · rw [Row.not_selects_of_disjoint d hq] at h; cases h
  simp [decodeWord, hf]

/-- Two bytes of a word in memory order make the word again (20_memory.md R54). -/
theorem wordOfBytes_high_low (w : Word) : wordOfBytes (highByte w) (lowByte w) = w := by
  unfold wordOfBytes highByte lowByte
  ext i hi
  rw [BitVec.getElem_append]
  split
  · simp [BitVec.getLsbD_eq_getElem (show i < 16 by omega)]
  · simp [show 8 + (i - 8) = i by omega, BitVec.getLsbD_eq_getElem (show i < 16 by omega)]

end Sys2Proof
end

