-- ==== Sys2Proof/Laws/Memory.lean ====
section
/-! SUPPORT. The laws of memory: a read after a write, and that every operation keeps the canonical form. -/

namespace Sys2Proof.Machine

@[simp] theorem Memory.read_nil (a : Nat) : Memory.read [] a = 0 := rfl

theorem Memory.wf_nil : Memory.wf [] := by simp [Memory.wf]

/-- The tail of a canonical memory is canonical. -/
theorem Memory.wf_tail {c : Host.Cell} {m : Memory} (h : Memory.wf (c :: m)) : Memory.wf m :=
  ⟨(List.pairwise_cons.mp h.1).2, fun d hd => h.2 d (List.mem_cons_of_mem c hd)⟩

/-- An address below every listed one reads as unlisted. -/
theorem Memory.read_of_lt {m : Memory} {a : Nat} (h : ∀ c ∈ m, a < c.1) : m.read a = 0 := by
  induction m with
  | nil => rfl
  | cons c m ih =>
    have hc := h c (List.mem_cons_self ..)
    have hne : a ≠ c.1 := by omega
    simp only [Memory.read, hne, if_false]
    exact ih fun d hd => h d (List.mem_cons_of_mem c hd)

theorem Memory.read_putCell (m : Memory) (a b : Nat) (v : Byte) (h : v = 0 → m.read a = 0) :
    (Memory.putCell a v m).read b = if b = a then v else m.read b := by
  unfold Memory.putCell
  by_cases hv : v = Memory.unlisted
  · by_cases hb : b = a
    · subst hb; simp [hv, h hv, Memory.unlisted]
    · simp [hv, hb]
  · simp [hv, Memory.read]

/-- Reading after a write, in a canonical memory. -/
theorem Memory.read_write (m : Memory) (hm : m.wf) (a b : Nat) (v : Byte) :
    (m.write a v).read b = if b = a then v else m.read b := by
  induction m with
  | nil => rw [Memory.write, Memory.read_putCell _ _ _ _ fun _ => rfl]
  | cons c m ih =>
    have low : ∀ d ∈ m, c.1 < d.1 := (List.pairwise_cons.mp hm.1).1
    unfold Memory.write
    split
    · rename_i hlt
      refine Memory.read_putCell _ _ _ _ fun _ => Memory.read_of_lt fun d hd => ?_
      rcases List.mem_cons.mp hd with rfl | hd
      · exact hlt
      · exact lt_trans hlt (low d hd)
    · split
      · rename_i heq
        subst heq
        rw [Memory.read_putCell _ _ _ _ fun _ => Memory.read_of_lt low]
        by_cases hb : b = c.1 <;> simp [Memory.read, hb]
      · rename_i hne
        have ih := ih (Memory.wf_tail hm)
        by_cases hb : b = c.1
        · subst hb
          have : c.1 ≠ a := fun e => hne e.symm
          simp [Memory.read, this]
        · simp [Memory.read, hb, ih]

/-- A write leaves every other address alone, in any memory. -/
theorem Memory.read_write_of_ne (m : Memory) (a b : Nat) (v : Byte) (h : b ≠ a) : (m.write a v).read b = m.read b := by
  induction m with
  | nil => simp only [Memory.write, Memory.putCell]; split <;> simp [Memory.read, h, Memory.unlisted]
  | cons c m ih =>
    unfold Memory.write
    split
    · simp only [Memory.putCell]; split <;> simp [Memory.read, h]
    · split
      · rename_i heq
        subst heq
        simp only [Memory.putCell]; split <;> simp [Memory.read, h]
      · simp [Memory.read, ih]

/-- What a write lists: the new cell or a cell that was listed. -/
theorem Memory.mem_write {m : Memory} {a : Nat} {v : Byte} {c : Host.Cell} (h : c ∈ m.write a v) :
    (c = (a, v) ∧ v ≠ Memory.unlisted) ∨ c ∈ m := by
  induction m with
  | nil => simp only [Memory.write, Memory.putCell] at h; split at h <;> simp_all
  | cons d m ih =>
    simp only [Memory.write] at h
    split at h
    · simp only [Memory.putCell] at h; split at h <;> simp_all
    · split at h
      · simp only [Memory.putCell] at h; split at h <;> simp_all
        rcases h with h | h <;> simp [h]
      · rcases List.mem_cons.mp h with rfl | h
        · simp
        · rcases ih h with h | h
          · exact .inl h
          · exact .inr (List.mem_cons_of_mem d h)

/-- A write inside memory keeps the canonical form. -/
theorem Memory.wf_write {m : Memory} (hm : m.wf) {a : Nat} (ha : a ≤ Config.lastAddr) (v : Byte) : (m.write a v).wf := by
  refine ⟨?_, fun c hc => ?_⟩
  · induction m with
    | nil => simp only [Memory.write, Memory.putCell]; split <;> simp
    | cons d m ih =>
      have hp := List.pairwise_cons.mp hm.1
      simp only [Memory.write]
      split
      · rename_i hlt
        simp only [Memory.putCell]
        split
        · exact hm.1
        · refine List.pairwise_cons.mpr ⟨fun e he => ?_, hm.1⟩
          rcases List.mem_cons.mp he with rfl | he
          · exact hlt
          · exact lt_trans hlt (hp.1 e he)
      · split
        · rename_i heq
          subst heq
          simp only [Memory.putCell]
          split
          · exact hp.2
          · exact List.pairwise_cons.mpr ⟨hp.1, hp.2⟩
        · refine List.pairwise_cons.mpr ⟨fun e he => ?_, ih (Memory.wf_tail hm)⟩
          rcases Memory.mem_write he with ⟨rfl, -⟩ | he
          · simp only; omega
          · exact hp.1 e he
  · rcases Memory.mem_write hc with ⟨rfl, hv⟩ | hc
    · exact ⟨ha, hv⟩
    · exact hm.2 c hc

/-! ## Several bytes -/

/-- Storing bytes inside memory keeps the canonical form. -/
theorem Memory.wf_writeList {m : Memory} (hm : m.wf) (vs : List Byte) (a : Nat) (h : a + vs.length ≤ Config.lastAddr + 1) :
    (m.writeList a vs).wf := by
  induction vs generalizing m a with
  | nil => exact hm
  | cons v vs ih =>
    simp only [List.length_cons] at h
    exact ih (Memory.wf_write hm (by omega) v) (a + 1) (by omega)

/-- An address outside the stored bytes reads as before, in any memory. -/
theorem Memory.read_writeList_of_outside (m : Memory) (vs : List Byte) (a b : Nat) (h : b < a ∨ a + vs.length ≤ b) :
    (m.writeList a vs).read b = m.read b := by
  induction vs generalizing m a with
  | nil => rfl
  | cons v vs ih =>
    simp only [List.length_cons] at h
    rw [Memory.writeList, ih _ _ (by omega), Memory.read_write_of_ne _ _ _ _ (by omega)]

/-- The stored bytes read back, in a canonical memory. -/
theorem Memory.read_writeList {m : Memory} (hm : m.wf) (vs : List Byte) (a j : Nat) (hj : j < vs.length)
    (h : a + vs.length ≤ Config.lastAddr + 1) : (m.writeList a vs).read (a + j) = vs[j] := by
  induction vs generalizing m a j with
  | nil => simp at hj
  | cons v vs ih =>
    simp only [List.length_cons] at h hj
    cases j with
    | zero =>
      rw [Memory.writeList, Memory.read_writeList_of_outside _ _ _ _ (by omega), Memory.read_write _ hm]
      simp
    | succ j =>
      have := ih (Memory.wf_write hm (by omega : a ≤ Config.lastAddr) v) (a + 1) j (by omega) (by omega)
      simpa [Memory.writeList, Nat.add_assoc, Nat.add_comm 1 j] using this

end Sys2Proof.Machine
end

