-- ==== Sys2Proof/Laws/State.lean ====
section
/-! SUPPORT. What each update of the state leaves of each field, true by rfl, so that no proof unfolds a record update. -/

namespace Sys2Proof.Machine

/-! ## Writing a register -/

@[simp] theorem State.setV_mem (s : State) (r : Reg) (v : Byte) : (s.setV r v).mem = s.mem := rfl
@[simp] theorem State.setV_I (s : State) (r : Reg) (v : Byte) : (s.setV r v).I = s.I := rfl
@[simp] theorem State.setV_pc (s : State) (r : Reg) (v : Byte) : (s.setV r v).pc = s.pc := rfl
@[simp] theorem State.setV_stack (s : State) (r : Reg) (v : Byte) : (s.setV r v).stack = s.stack := rfl
@[simp] theorem State.setV_sp (s : State) (r : Reg) (v : Byte) : (s.setV r v).sp = s.sp := rfl
@[simp] theorem State.setV_DT (s : State) (r : Reg) (v : Byte) : (s.setV r v).DT = s.DT := rfl
@[simp] theorem State.setV_ST (s : State) (r : Reg) (v : Byte) : (s.setV r v).ST = s.ST := rfl
@[simp] theorem State.setV_fb (s : State) (r : Reg) (v : Byte) : (s.setV r v).fb = s.fb := rfl
@[simp] theorem State.setV_draw (s : State) (r : Reg) (v : Byte) : (s.setV r v).draw = s.draw := rfl
@[simp] theorem State.setV_key (s : State) (r : Reg) (v : Byte) : (s.setV r v).key = s.key := rfl
@[simp] theorem State.setV_halted (s : State) (r : Reg) (v : Byte) : (s.setV r v).halted = s.halted := rfl
@[simp] theorem State.setV_fault (s : State) (r : Reg) (v : Byte) : (s.setV r v).fault = s.fault := rfl
@[simp] theorem State.setV_soundExpired (s : State) (r : Reg) (v : Byte) : (s.setV r v).soundExpired = s.soundExpired := rfl
@[simp] theorem State.setV_rndDraws (s : State) (r : Reg) (v : Byte) : (s.setV r v).rndDraws = s.rndDraws := rfl
@[simp] theorem State.setV_config (s : State) (r : Reg) (v : Byte) : (s.setV r v).config = s.config := rfl

/-! ## Writing pc -/

@[simp] theorem State.setPc_mem (s : State) (a : Word) : (s.setPc a).mem = s.mem := rfl
@[simp] theorem State.setPc_V (s : State) (a : Word) : (s.setPc a).V = s.V := rfl
@[simp] theorem State.setPc_I (s : State) (a : Word) : (s.setPc a).I = s.I := rfl
@[simp] theorem State.setPc_stack (s : State) (a : Word) : (s.setPc a).stack = s.stack := rfl
@[simp] theorem State.setPc_sp (s : State) (a : Word) : (s.setPc a).sp = s.sp := rfl
@[simp] theorem State.setPc_DT (s : State) (a : Word) : (s.setPc a).DT = s.DT := rfl
@[simp] theorem State.setPc_ST (s : State) (a : Word) : (s.setPc a).ST = s.ST := rfl
@[simp] theorem State.setPc_fb (s : State) (a : Word) : (s.setPc a).fb = s.fb := rfl
@[simp] theorem State.setPc_draw (s : State) (a : Word) : (s.setPc a).draw = s.draw := rfl
@[simp] theorem State.setPc_key (s : State) (a : Word) : (s.setPc a).key = s.key := rfl
@[simp] theorem State.setPc_halted (s : State) (a : Word) : (s.setPc a).halted = s.halted := rfl
@[simp] theorem State.setPc_fault (s : State) (a : Word) : (s.setPc a).fault = s.fault := rfl
@[simp] theorem State.setPc_soundExpired (s : State) (a : Word) : (s.setPc a).soundExpired = s.soundExpired := rfl
@[simp] theorem State.setPc_rndDraws (s : State) (a : Word) : (s.setPc a).rndDraws = s.rndDraws := rfl
@[simp] theorem State.setPc_config (s : State) (a : Word) : (s.setPc a).config = s.config := rfl

/-! ## Going to the next instruction -/

@[simp] theorem State.advance_mem (s : State) : s.advance.mem = s.mem := rfl
@[simp] theorem State.advance_V (s : State) : s.advance.V = s.V := rfl
@[simp] theorem State.advance_I (s : State) : s.advance.I = s.I := rfl
@[simp] theorem State.advance_stack (s : State) : s.advance.stack = s.stack := rfl
@[simp] theorem State.advance_sp (s : State) : s.advance.sp = s.sp := rfl
@[simp] theorem State.advance_DT (s : State) : s.advance.DT = s.DT := rfl
@[simp] theorem State.advance_ST (s : State) : s.advance.ST = s.ST := rfl
@[simp] theorem State.advance_fb (s : State) : s.advance.fb = s.fb := rfl
@[simp] theorem State.advance_draw (s : State) : s.advance.draw = s.draw := rfl
@[simp] theorem State.advance_key (s : State) : s.advance.key = s.key := rfl
@[simp] theorem State.advance_halted (s : State) : s.advance.halted = s.halted := rfl
@[simp] theorem State.advance_fault (s : State) : s.advance.fault = s.fault := rfl
@[simp] theorem State.advance_soundExpired (s : State) : s.advance.soundExpired = s.soundExpired := rfl
@[simp] theorem State.advance_rndDraws (s : State) : s.advance.rndDraws = s.rndDraws := rfl
@[simp] theorem State.advance_config (s : State) : s.advance.config = s.config := rfl

/-! ## Skipping or not -/

@[simp] theorem State.skipIf_mem (s : State) (c : Bool) : (s.skipIf c).mem = s.mem := rfl
@[simp] theorem State.skipIf_V (s : State) (c : Bool) : (s.skipIf c).V = s.V := rfl
@[simp] theorem State.skipIf_I (s : State) (c : Bool) : (s.skipIf c).I = s.I := rfl
@[simp] theorem State.skipIf_stack (s : State) (c : Bool) : (s.skipIf c).stack = s.stack := rfl
@[simp] theorem State.skipIf_sp (s : State) (c : Bool) : (s.skipIf c).sp = s.sp := rfl
@[simp] theorem State.skipIf_DT (s : State) (c : Bool) : (s.skipIf c).DT = s.DT := rfl
@[simp] theorem State.skipIf_ST (s : State) (c : Bool) : (s.skipIf c).ST = s.ST := rfl
@[simp] theorem State.skipIf_fb (s : State) (c : Bool) : (s.skipIf c).fb = s.fb := rfl
@[simp] theorem State.skipIf_draw (s : State) (c : Bool) : (s.skipIf c).draw = s.draw := rfl
@[simp] theorem State.skipIf_key (s : State) (c : Bool) : (s.skipIf c).key = s.key := rfl
@[simp] theorem State.skipIf_halted (s : State) (c : Bool) : (s.skipIf c).halted = s.halted := rfl
@[simp] theorem State.skipIf_fault (s : State) (c : Bool) : (s.skipIf c).fault = s.fault := rfl
@[simp] theorem State.skipIf_soundExpired (s : State) (c : Bool) : (s.skipIf c).soundExpired = s.soundExpired := rfl
@[simp] theorem State.skipIf_rndDraws (s : State) (c : Bool) : (s.skipIf c).rndDraws = s.rndDraws := rfl
@[simp] theorem State.skipIf_config (s : State) (c : Bool) : (s.skipIf c).config = s.config := rfl

/-! ## Flipping a cell -/

@[simp] theorem State.flipFb_mem (s : State) (k : Fin 2048) : (s.flipFb k).mem = s.mem := rfl
@[simp] theorem State.flipFb_V (s : State) (k : Fin 2048) : (s.flipFb k).V = s.V := rfl
@[simp] theorem State.flipFb_I (s : State) (k : Fin 2048) : (s.flipFb k).I = s.I := rfl
@[simp] theorem State.flipFb_pc (s : State) (k : Fin 2048) : (s.flipFb k).pc = s.pc := rfl
@[simp] theorem State.flipFb_stack (s : State) (k : Fin 2048) : (s.flipFb k).stack = s.stack := rfl
@[simp] theorem State.flipFb_sp (s : State) (k : Fin 2048) : (s.flipFb k).sp = s.sp := rfl
@[simp] theorem State.flipFb_DT (s : State) (k : Fin 2048) : (s.flipFb k).DT = s.DT := rfl
@[simp] theorem State.flipFb_ST (s : State) (k : Fin 2048) : (s.flipFb k).ST = s.ST := rfl
@[simp] theorem State.flipFb_draw (s : State) (k : Fin 2048) : (s.flipFb k).draw = s.draw := rfl
@[simp] theorem State.flipFb_key (s : State) (k : Fin 2048) : (s.flipFb k).key = s.key := rfl
@[simp] theorem State.flipFb_halted (s : State) (k : Fin 2048) : (s.flipFb k).halted = s.halted := rfl
@[simp] theorem State.flipFb_fault (s : State) (k : Fin 2048) : (s.flipFb k).fault = s.fault := rfl
@[simp] theorem State.flipFb_soundExpired (s : State) (k : Fin 2048) : (s.flipFb k).soundExpired = s.soundExpired := rfl
@[simp] theorem State.flipFb_rndDraws (s : State) (k : Fin 2048) : (s.flipFb k).rndDraws = s.rndDraws := rfl
@[simp] theorem State.flipFb_config (s : State) (k : Fin 2048) : (s.flipFb k).config = s.config := rfl

/-! ## Taking a fault -/

@[simp] theorem State.raise_mem (s : State) (c : FaultCause) (w : Word) : (s.raise c w).mem = s.mem := rfl
@[simp] theorem State.raise_V (s : State) (c : FaultCause) (w : Word) : (s.raise c w).V = s.V := rfl
@[simp] theorem State.raise_I (s : State) (c : FaultCause) (w : Word) : (s.raise c w).I = s.I := rfl
@[simp] theorem State.raise_pc (s : State) (c : FaultCause) (w : Word) : (s.raise c w).pc = s.pc := rfl
@[simp] theorem State.raise_stack (s : State) (c : FaultCause) (w : Word) : (s.raise c w).stack = s.stack := rfl
@[simp] theorem State.raise_sp (s : State) (c : FaultCause) (w : Word) : (s.raise c w).sp = s.sp := rfl
@[simp] theorem State.raise_DT (s : State) (c : FaultCause) (w : Word) : (s.raise c w).DT = s.DT := rfl
@[simp] theorem State.raise_ST (s : State) (c : FaultCause) (w : Word) : (s.raise c w).ST = s.ST := rfl
@[simp] theorem State.raise_fb (s : State) (c : FaultCause) (w : Word) : (s.raise c w).fb = s.fb := rfl
@[simp] theorem State.raise_draw (s : State) (c : FaultCause) (w : Word) : (s.raise c w).draw = s.draw := rfl
@[simp] theorem State.raise_key (s : State) (c : FaultCause) (w : Word) : (s.raise c w).key = s.key := rfl
@[simp] theorem State.raise_soundExpired (s : State) (c : FaultCause) (w : Word) : (s.raise c w).soundExpired = s.soundExpired := rfl
@[simp] theorem State.raise_rndDraws (s : State) (c : FaultCause) (w : Word) : (s.raise c w).rndDraws = s.rndDraws := rfl
@[simp] theorem State.raise_config (s : State) (c : FaultCause) (w : Word) : (s.raise c w).config = s.config := rfl

/-! ## The timer step -/

@[simp] theorem State.timerStep_mem (s : State) : s.timerStep.mem = s.mem := rfl
@[simp] theorem State.timerStep_V (s : State) : s.timerStep.V = s.V := rfl
@[simp] theorem State.timerStep_I (s : State) : s.timerStep.I = s.I := rfl
@[simp] theorem State.timerStep_pc (s : State) : s.timerStep.pc = s.pc := rfl
@[simp] theorem State.timerStep_stack (s : State) : s.timerStep.stack = s.stack := rfl
@[simp] theorem State.timerStep_sp (s : State) : s.timerStep.sp = s.sp := rfl
@[simp] theorem State.timerStep_fb (s : State) : s.timerStep.fb = s.fb := rfl
@[simp] theorem State.timerStep_draw (s : State) : s.timerStep.draw = s.draw := rfl
@[simp] theorem State.timerStep_key (s : State) : s.timerStep.key = s.key := rfl
@[simp] theorem State.timerStep_halted (s : State) : s.timerStep.halted = s.halted := rfl
@[simp] theorem State.timerStep_fault (s : State) : s.timerStep.fault = s.fault := rfl
@[simp] theorem State.timerStep_rndDraws (s : State) : s.timerStep.rndDraws = s.rndDraws := rfl
@[simp] theorem State.timerStep_config (s : State) : s.timerStep.config = s.config := rfl

/-! ## RND with a given byte -/

@[simp] theorem State.rndWith_mem (s : State) (x : Reg) (kk b : Byte) : (s.rndWith x kk b).mem = s.mem := rfl
@[simp] theorem State.rndWith_I (s : State) (x : Reg) (kk b : Byte) : (s.rndWith x kk b).I = s.I := rfl
@[simp] theorem State.rndWith_stack (s : State) (x : Reg) (kk b : Byte) : (s.rndWith x kk b).stack = s.stack := rfl
@[simp] theorem State.rndWith_sp (s : State) (x : Reg) (kk b : Byte) : (s.rndWith x kk b).sp = s.sp := rfl
@[simp] theorem State.rndWith_DT (s : State) (x : Reg) (kk b : Byte) : (s.rndWith x kk b).DT = s.DT := rfl
@[simp] theorem State.rndWith_ST (s : State) (x : Reg) (kk b : Byte) : (s.rndWith x kk b).ST = s.ST := rfl
@[simp] theorem State.rndWith_fb (s : State) (x : Reg) (kk b : Byte) : (s.rndWith x kk b).fb = s.fb := rfl
@[simp] theorem State.rndWith_draw (s : State) (x : Reg) (kk b : Byte) : (s.rndWith x kk b).draw = s.draw := rfl
@[simp] theorem State.rndWith_key (s : State) (x : Reg) (kk b : Byte) : (s.rndWith x kk b).key = s.key := rfl
@[simp] theorem State.rndWith_halted (s : State) (x : Reg) (kk b : Byte) : (s.rndWith x kk b).halted = s.halted := rfl
@[simp] theorem State.rndWith_fault (s : State) (x : Reg) (kk b : Byte) : (s.rndWith x kk b).fault = s.fault := rfl
@[simp] theorem State.rndWith_soundExpired (s : State) (x : Reg) (kk b : Byte) : (s.rndWith x kk b).soundExpired = s.soundExpired := rfl
@[simp] theorem State.rndWith_rndDraws (s : State) (x : Reg) (kk b : Byte) : (s.rndWith x kk b).rndDraws = s.rndDraws := rfl
@[simp] theorem State.rndWith_config (s : State) (x : Reg) (kk b : Byte) : (s.rndWith x kk b).config = s.config := rfl

/-! ## Loading the font -/

@[simp] theorem State.loadFontset_V (s : State) : s.loadFontset.V = s.V := rfl
@[simp] theorem State.loadFontset_I (s : State) : s.loadFontset.I = s.I := rfl
@[simp] theorem State.loadFontset_pc (s : State) : s.loadFontset.pc = s.pc := rfl
@[simp] theorem State.loadFontset_stack (s : State) : s.loadFontset.stack = s.stack := rfl
@[simp] theorem State.loadFontset_sp (s : State) : s.loadFontset.sp = s.sp := rfl
@[simp] theorem State.loadFontset_DT (s : State) : s.loadFontset.DT = s.DT := rfl
@[simp] theorem State.loadFontset_ST (s : State) : s.loadFontset.ST = s.ST := rfl
@[simp] theorem State.loadFontset_fb (s : State) : s.loadFontset.fb = s.fb := rfl
@[simp] theorem State.loadFontset_draw (s : State) : s.loadFontset.draw = s.draw := rfl
@[simp] theorem State.loadFontset_key (s : State) : s.loadFontset.key = s.key := rfl
@[simp] theorem State.loadFontset_halted (s : State) : s.loadFontset.halted = s.halted := rfl
@[simp] theorem State.loadFontset_fault (s : State) : s.loadFontset.fault = s.fault := rfl
@[simp] theorem State.loadFontset_soundExpired (s : State) : s.loadFontset.soundExpired = s.soundExpired := rfl
@[simp] theorem State.loadFontset_rndDraws (s : State) : s.loadFontset.rndDraws = s.rndDraws := rfl
@[simp] theorem State.loadFontset_config (s : State) : s.loadFontset.config = s.config := rfl

/-! ## The fields an update writes -/

@[simp] theorem State.setPc_pc (s : State) (a : Word) : (s.setPc a).pc = a := rfl
@[simp] theorem State.advance_pc (s : State) : s.advance.pc = s.pc + 2 := rfl
@[simp] theorem State.skipIf_pc (s : State) (c : Bool) : (s.skipIf c).pc = if c then s.pc + 4 else s.pc + 2 := rfl
@[simp] theorem State.raise_halted (s : State) (c : FaultCause) (w : Word) : (s.raise c w).halted = true := rfl
@[simp] theorem State.raise_fault (s : State) (c : FaultCause) (w : Word) : (s.raise c w).fault = some ⟨c, w⟩ := rfl
@[simp] theorem State.timerStep_DT (s : State) : s.timerStep.DT = countDown s.DT := rfl
@[simp] theorem State.timerStep_ST (s : State) : s.timerStep.ST = countDown s.ST := rfl
@[simp] theorem State.timerStep_soundExpired (s : State) :
    s.timerStep.soundExpired = if s.ST = 1 then s.soundExpired + 1 else s.soundExpired := rfl
@[simp] theorem State.rndWith_pc (s : State) (x : Reg) (kk b : Byte) : (s.rndWith x kk b).pc = s.pc + 2 := rfl

/-! ## Reading a register after an update -/

/-- A register reads as it did in any state with the same registers. -/
theorem State.getV_congr (s t : State) (h : t.V = s.V) (r : Reg) : t.getV r = s.getV r := by
  simp [State.getV, h]

theorem State.getV_setV (s : State) (r q : Reg) (v : Byte) : (s.setV r v).getV q = if q = r then v else s.getV q := by
  simp only [State.getV, State.setV, Vector.getElem_set, Fin.ext_iff, eq_comm]

@[simp] theorem State.getV_setV_self (s : State) (r : Reg) (v : Byte) : (s.setV r v).getV r = v := by
  simp [State.getV_setV]

@[simp] theorem State.getV_setV_of_ne (s : State) (r q : Reg) (v : Byte) (h : q ≠ r) :
    (s.setV r v).getV q = s.getV q := by
  simp [State.getV_setV, h]

@[simp] theorem State.getV_setPc (s : State) (a : Word) (r : Reg) : (s.setPc a).getV r = s.getV r := rfl
@[simp] theorem State.getV_advance (s : State) (r : Reg) : s.advance.getV r = s.getV r := rfl
@[simp] theorem State.getV_skipIf (s : State) (c : Bool) (r : Reg) : (s.skipIf c).getV r = s.getV r := rfl
@[simp] theorem State.getV_flipFb (s : State) (k : Fin 2048) (r : Reg) : (s.flipFb k).getV r = s.getV r := rfl
@[simp] theorem State.getV_raise (s : State) (c : FaultCause) (w : Word) (r : Reg) : (s.raise c w).getV r = s.getV r := rfl
@[simp] theorem State.getV_timerStep (s : State) (r : Reg) : s.timerStep.getV r = s.getV r := rfl

/-- RND writes V[x] alone (42_register_arith.md R105). -/
@[simp] theorem State.getV_rndWith (s : State) (x r : Reg) (kk b : Byte) :
    (s.rndWith x kk b).getV r = if r = x then b &&& kk else s.getV r := by
  simp [State.rndWith, State.getV_setV]

/-! ## Reading a cell or a key after an update -/

theorem State.getFb_flipFb (s : State) (k j : Fin 2048) :
    (s.flipFb k).getFb j = if j = k then !s.getFb j else s.getFb j := by
  by_cases h : j = k
  · subst h; simp [State.getFb, State.flipFb]
  · have : k.val ≠ j.val := fun e => h (Fin.ext e.symm)
    simp [State.getFb, State.flipFb, h, this]

@[simp] theorem State.getFb_setV (s : State) (r : Reg) (v : Byte) (k : Fin 2048) : (s.setV r v).getFb k = s.getFb k := rfl
@[simp] theorem State.getFb_advance (s : State) (k : Fin 2048) : s.advance.getFb k = s.getFb k := rfl
@[simp] theorem State.getKey_setV (s : State) (r : Reg) (v : Byte) (k : Fin 16) : (s.setV r v).getKey k = s.getKey k := rfl
@[simp] theorem State.getKey_advance (s : State) (k : Fin 16) : s.advance.getKey k = s.getKey k := rfl

theorem State.getKey_writeKey (s : State) (k j : Fin 16) (b : Bool) :
    (s.hostAct (.writeKey k b)).getKey j = if j = k then b else s.getKey j := by
  by_cases h : j = k
  · subst h; simp [State.getKey, State.hostAct]
  · have : k.val ≠ j.val := fun e => h (Fin.ext e.symm)
    simp [State.getKey, State.hostAct, h, this]

/-! ## The state after construction (10_state.md R47) -/

@[simp] theorem State.getV_construct (c : Config) (r : Reg) : (State.construct c).getV r = 0 := by
  simp [State.getV, State.construct]

@[simp] theorem State.getFb_construct (c : Config) (k : Fin 2048) : (State.construct c).getFb k = false := by
  simp [State.getFb, State.construct]

@[simp] theorem State.getKey_construct (c : Config) (k : Fin 16) : (State.construct c).getKey k = false := by
  simp [State.getKey, State.construct]

/-! ## Agreement of states -/

theorem SameBut.refl (ps : List Part) (s : State) : SameBut ps s s := fun p _ => by cases p <;> simp [Same]

/-- Taking a fault leaves the state of a faulting cycle (60_exceptions.md R121). -/
theorem faulted_raise (s : State) (c : FaultCause) (w : Word) : Faulted s (s.raise c w) c w :=
  ⟨rfl, rfl, fun p hp => by cases p <;> first | exact rfl | exact fun _ => rfl | simp at hp⟩

theorem Same.trans {s t u : State} {p : Part} (h : Same s t p) (k : Same t u p) : Same s u p := by
  cases p <;> simp_all [Same]

theorem SameBut.trans {ps : List Part} {s t u : State} (h : SameBut ps s t) (k : SameBut ps t u) : SameBut ps s u :=
  fun p hp => (h p hp).trans (k p hp)

end Sys2Proof.Machine
end

