-- ==== Sys2Proof/Laws/Ops.lean ====
section
/-! SUPPORT. One lemma for each shared operation that says all it can do; proofs cite it and do not unfold the operation. -/

namespace Sys2Proof.Machine

/-! ## Memory accesses -/

theorem State.memRead_of_le (s : State) {a : Nat} (h : a ≤ Config.lastAddr) : s.memRead a = .ok (s.mem.read a) := by
  simp [State.memRead, Nat.not_lt.mpr h]

theorem State.memRead_of_lt (s : State) {a : Nat} (h : Config.lastAddr < a) :
    s.memRead a = .error ⟨.memoryBounds, BitVec.ofNat 16 a⟩ := by
  simp [State.memRead, h]

/-- The range check of a multi-byte instruction (20_memory.md R52). -/
theorem State.indexedFits_iff (s : State) (count : Nat) :
    s.indexedFits count = true ↔ count = 0 ∨ s.I.toNat + count - 1 ≤ 0xFFF := by
  have e : Config.lastAddr = 0xFFF := rfl
  simp only [State.indexedFits, decide_eq_true_iff]
  omega

/-! ## The call stack -/

theorem State.pushPcAndGo_of_lt (s : State) (target : Word) (h : s.sp.toNat < 16) :
    s.pushPcAndGo target =
      .next (State.setPc { s with stack := s.stack.set s.sp.toNat s.pc, sp := s.sp + 1 } target) := by
  simp [State.pushPcAndGo, h]

theorem State.pushPcAndGo_of_le (s : State) (target : Word) (h : 16 ≤ s.sp.toNat) :
    s.pushPcAndGo target = .fault (.noStackSlot s.sp.toNat) := by
  simp [State.pushPcAndGo, Nat.not_lt.mpr h]

theorem State.popAndGo_of_lt (s : State) (h : s.sp.toNat - 1 < 16) :
    s.popAndGo = .next (State.setPc { s with sp := s.sp - 1 } (s.stack[s.sp.toNat - 1] + 2)) := by
  simp [State.popAndGo, h]

theorem State.popAndGo_of_le (s : State) (h : 16 ≤ s.sp.toNat - 1) :
    s.popAndGo = .fault (.noStackSlot (s.sp.toNat - 1)) := by
  simp [State.popAndGo, Nat.not_lt.mpr h]

/-! ## Operands (40_cycle.md R88) -/

theorem State.operand_latched (s : State) (v : Byte) (r : Reg) (h : s.config.vfOperandOrder = .latched) :
    s.operand v r = v := by
  simp [State.operand, h]

theorem State.operand_sequential (s : State) (v : Byte) (r : Reg) (h : s.config.vfOperandOrder = .sequential) :
    s.operand v r = s.getV r := by
  simp [State.operand, h]

/-- Where the register still holds the latched value, the order does not matter. -/
theorem State.operand_of_getV (s : State) (v : Byte) (r : Reg) (h : s.getV r = v) : s.operand v r = v := by
  unfold State.operand; split <;> simp [h]

/-! ## Loading registers (43_index_memory.md R109) -/

/-- Loading registers changes registers alone. -/
theorem State.loadRegs_eq (s : State) (count : Nat) : ∃ V, s.loadRegs count = { s with V := V } := by
  induction count with
  | zero => exact ⟨s.V, rfl⟩
  | succ j ih =>
    obtain ⟨V, h⟩ := ih
    rw [State.loadRegs, h, State.loadReg]
    split
    · exact ⟨_, rfl⟩
    · exact ⟨V, rfl⟩

/-- The first `count` registers are the bytes from I on, the others stay. -/
theorem State.getV_loadRegs (s : State) (count : Nat) (r : Reg) :
    (s.loadRegs count).getV r = if r.val < count then s.indexedByte r.val else s.getV r := by
  induction count with
  | zero => simp [State.loadRegs]
  | succ j ih =>
    obtain ⟨V, h⟩ := s.loadRegs_eq j
    have hb : (s.loadRegs j).indexedByte j = s.indexedByte j := by rw [h]; rfl
    rw [State.loadRegs, State.loadReg]
    split
    · rw [State.getV_setV, hb, ih]
      by_cases hr : r.val = j
      · simp [← hr]
      · have : r ≠ ⟨j, by assumption⟩ := fun e => hr (congrArg Fin.val e)
        simp only [this, if_false]
        split <;> split <;> first | rfl | omega
    · rw [ih]
      split <;> split <;> first | rfl | omega

/-! ## Drawing (44_draw.md R110) -/

/-- What drawing may change: cells of the framebuffer and VF. -/
structure State.DrawsOnly (s t : State) : Prop where
  rest : ∃ V fb, t = { s with V := V, fb := fb }
  regs : ∀ r, r ≠ VF → t.getV r = s.getV r

theorem State.DrawsOnly.refl (s : State) : s.DrawsOnly s := ⟨⟨s.V, s.fb, rfl⟩, fun _ _ => rfl⟩

theorem State.DrawsOnly.trans {s t u : State} (h : s.DrawsOnly t) (k : t.DrawsOnly u) : s.DrawsOnly u := by
  obtain ⟨V, fb, rfl⟩ := h.rest
  obtain ⟨V', fb', rfl⟩ := k.rest
  exact ⟨⟨V', fb', rfl⟩, fun r hr => (k.regs r hr).trans (h.regs r hr)⟩

theorem State.drawsOnly_setVF (s : State) (v : Byte) : s.DrawsOnly (s.setV VF v) :=
  ⟨⟨(s.setV VF v).V, s.fb, rfl⟩, fun r hr => by simp [hr]⟩

/-- Drawing a set bit flips its cell and no other. -/
theorem State.getFb_drawCell (s : State) (k j : Fin 2048) :
    (s.drawCell k).getFb j = if j = k then !s.getFb j else s.getFb j := by
  unfold State.drawCell
  rw [State.getFb_flipFb]
  cases s.getFb k <;> split <;> rfl

/-- Drawing a set bit sets VF on a collision and leaves it otherwise. -/
theorem State.getV_drawCell (s : State) (k : Fin 2048) :
    (s.drawCell k).getV VF = if s.getFb k then 1 else s.getV VF := by
  unfold State.drawCell
  rw [State.getV_flipFb]
  split <;> simp

theorem State.drawsOnly_drawCell (s : State) (k : Fin 2048) : s.DrawsOnly (s.drawCell k) := by
  have flip : ∀ t : State, t.DrawsOnly (t.flipFb k) := fun t => ⟨⟨t.V, (t.flipFb k).fb, rfl⟩, fun _ _ => rfl⟩
  unfold State.drawCell
  split
  · exact (s.drawsOnly_setVF 1).trans (flip _)
  · exact flip s

theorem State.drawsOnly_drawBit (vx vy : Byte) (x y : Reg) (row : Nat) (bits : Byte) (s : State) (col : Nat) :
    s.DrawsOnly (s.drawBit vx vy x y row bits col) := by
  unfold State.drawBit
  split
  · exact s.drawsOnly_drawCell _
  · exact .refl s

/-- A fold of drawing steps draws only. -/
theorem State.drawsOnly_foldl (f : State → Nat → State) (hf : ∀ (t : State) (k : Nat), t.DrawsOnly (f t k)) (l : List Nat) (s : State) :
    s.DrawsOnly (l.foldl f s) := by
  induction l generalizing s with
  | nil => exact .refl s
  | cons k l ih => exact (hf s k).trans (ih (f s k))

theorem State.drawsOnly_drawRow (vx vy : Byte) (x y : Reg) (s : State) (row : Nat) :
    s.DrawsOnly (s.drawRow vx vy x y row) :=
  State.drawsOnly_foldl _ (fun t k => t.drawsOnly_drawBit vx vy x y row _ k) _ s

/-- Drawing a sprite changes the framebuffer and VF alone. -/
theorem State.drawsOnly_drawSprite (s : State) (x y : Reg) (n : Nat) : s.DrawsOnly (s.drawSprite x y n) :=
  (s.drawsOnly_setVF 0).trans (State.drawsOnly_foldl _ (fun t k => t.drawsOnly_drawRow _ _ x y k) _ _)

/-! ## The timers (40_cycle.md R90) -/

/-- A timer counts down by one and stops at 0. -/
theorem countDown_toNat (t : Byte) : (countDown t).toNat = t.toNat - 1 := by
  unfold countDown
  split
  · rename_i h; subst h; rfl
  · rename_i h
    have : t.toNat ≠ 0 := fun e => h (BitVec.eq_of_toNat_eq e)
    bv_omega

/-! ## Host acts (70_reset_and_hazards.md R143) -/

/-- An act of the host changes the key latch and the draw flag alone. -/
theorem State.hostAct_eq (s : State) (a : HostAct) : ∃ key draw, s.hostAct a = { s with key := key, draw := draw } := by
  cases a with
  | writeKey k b => exact ⟨s.key.set k.val b, s.draw, rfl⟩
  | clearDraw => exact ⟨s.key, false, rfl⟩

end Sys2Proof.Machine
end

