-- ==== Sys2Proof/Laws/Exec.lean ====
section
/-! SUPPORT. What Execute answers for the instructions that have a check of their own (60_exceptions.md R124): one equation for
each outcome. The other instructions answer their next state by rfl. -/

namespace Sys2Proof.Machine

theorem execRet_of_empty (s : State) (h : s.sp = 0) : execRet s = .next (s.raise .stackUnderflow 0x00EE) := by
  simp [execRet, h]

theorem execRet_of_pos (s : State) (h : s.sp ≠ 0) : execRet s = s.popAndGo := if_neg h

theorem execCall_of_full (nnn : BitVec 12) (s : State) (h : s.sp.toNat = 16) :
    execCall nnn s = .next (s.raise .stackOverflow (encodeWord (.call nnn))) := by
  simp [execCall, h]

theorem execCall_of_ne (nnn : BitVec 12) (s : State) (h : s.sp.toNat ≠ 16) :
    execCall nnn s = s.pushPcAndGo (addrOperand nnn) := by
  simp [execCall, h]

theorem execSknp_of_key (x : Reg) (s : State) (k : Fin 16) (h : (s.getV x).toNat = k.val) :
    execSknp x s = .next (s.skipIf (!s.getKey k)) := by
  simp [execSknp, h]

theorem execSknp_of_lt (x : Reg) (s : State) (h : 0xF < (s.getV x).toNat) :
    execSknp x s = .next (s.raise .keyIndex ((s.getV x).setWidth 16)) := by
  simp [execSknp, Nat.not_lt.mpr h]

theorem execLdB_of_fits (x : Reg) (s : State) (h : s.I.toNat + 2 ≤ 0xFFF) :
    execLdB x s =
      .next (State.advance { s with mem := s.mem.writeList s.I.toNat (decimalDigits (s.getV x)) }) := by
  rw [execLdB, if_pos ((s.indexedFits_iff 3).mpr (by omega))]

theorem execLdB_of_lt (x : Reg) (s : State) (h : 0xFFF < s.I.toNat + 2) :
    execLdB x s = .next (s.raise .memoryBounds firstAddrPastMemory) := by
  rw [execLdB, if_neg (fun e => by have := (s.indexedFits_iff 3).mp e; omega)]

theorem execLdVxI_of_fits (x : Reg) (s : State) (h : s.I.toNat + x.val ≤ 0xFFF) :
    execLdVxI x s = .next (s.loadRegs (x.val + 1)).advance := by
  rw [execLdVxI, if_pos ((s.indexedFits_iff (x.val + 1)).mpr (by omega))]

theorem execLdVxI_of_lt (x : Reg) (s : State) (h : 0xFFF < s.I.toNat + x.val) :
    execLdVxI x s = .next (s.raise .memoryBounds firstAddrPastMemory) := by
  rw [execLdVxI, if_neg (fun e => by have := (s.indexedFits_iff (x.val + 1)).mp e; omega)]

theorem execDrw_of_fits (x y : Reg) (n : Nat) (s : State) (h : n = 0 ∨ s.I.toNat + n - 1 ≤ 0xFFF) :
    execDrw x y n s = .next (State.advance { s.drawSprite x y n with draw := true }) := by
  rw [execDrw, if_pos ((s.indexedFits_iff n).mpr h)]

theorem execDrw_of_lt (x y : Reg) (n : Nat) (s : State) (h : 1 ≤ n) (h' : 0xFFF < s.I.toNat + n - 1) :
    execDrw x y n s = .next (s.raise .memoryBounds firstAddrPastMemory) := by
  rw [execDrw, if_neg (fun e => by have := (s.indexedFits_iff n).mp e; omega)]

end Sys2Proof.Machine
end

