-- ==== Sys2Proof/Laws/PerInstr.lean ====
section
/-! SUPPORT. The per-instruction family DecodeEncode: the decoder reads an instruction back from its word. -/

namespace Sys2Proof.Laws.DecodeEncode

/-- The decoder reads a well-formed instruction back from its word. -/
def Statement (i : Instr) : Prop := i.wellFormed = true → decodeWord (encodeWord i) = some i

/-- An instruction is read back if its word selects a row of the table that assembles to it. -/
theorem of_row {i : Instr} (r : Row) (hr : r ∈ opcodeTable) (h : encodeWord i &&& r.mask = r.pattern)
    (ha : i.wellFormed = true → assemble r.op (encodeWord i) = i) : Statement i := fun hw => by
  rw [decodeWord_of_selects hr (by simpa [Row.selects] using h), ha hw]

theorem ret : Statement .ret := fun _ => by decide

theorem jp (nnn : BitVec 12) : Statement (.jp nnn) :=
  of_row ⟨.jp, 0x1000, 0xF000⟩ (by decide) ((Sys2Proof.addrWord_and ..).trans (by decide)) fun _ => by simp [encodeWord, assemble]

theorem call (nnn : BitVec 12) : Statement (.call nnn) :=
  of_row ⟨.call, 0x2000, 0xF000⟩ (by decide) ((Sys2Proof.addrWord_and ..).trans (by decide)) fun _ => by simp [encodeWord, assemble]

theorem seImm (x : Reg) (kk : Byte) : Statement (.seImm x kk) :=
  of_row ⟨.seImm, 0x3000, 0xF000⟩ (by decide) ((Sys2Proof.regByteWord_and ..).trans (by decide)) fun _ => by simp [encodeWord, assemble]

theorem sneImm (x : Reg) (kk : Byte) : Statement (.sneImm x kk) :=
  of_row ⟨.sneImm, 0x4000, 0xF000⟩ (by decide) ((Sys2Proof.regByteWord_and ..).trans (by decide)) fun _ => by simp [encodeWord, assemble]

theorem ldImm (x : Reg) (kk : Byte) : Statement (.ldImm x kk) :=
  of_row ⟨.ldImm, 0x6000, 0xF000⟩ (by decide) ((Sys2Proof.regByteWord_and ..).trans (by decide)) fun _ => by simp [encodeWord, assemble]

theorem addImm (x : Reg) (kk : Byte) : Statement (.addImm x kk) :=
  of_row ⟨.addImm, 0x7000, 0xF000⟩ (by decide) ((Sys2Proof.regByteWord_and ..).trans (by decide)) fun _ => by simp [encodeWord, assemble]

theorem ldReg (x y : Reg) : Statement (.ldReg x y) :=
  of_row ⟨.ldReg, 0x8000, 0xF00F⟩ (by decide) ((Sys2Proof.regRegWord_and_fn ..).trans (by decide)) fun _ => by simp [encodeWord, assemble]

theorem andReg (x y : Reg) : Statement (.andReg x y) :=
  of_row ⟨.andReg, 0x8002, 0xF00F⟩ (by decide) ((Sys2Proof.regRegWord_and_fn ..).trans (by decide)) fun _ => by simp [encodeWord, assemble]

theorem addReg (x y : Reg) : Statement (.addReg x y) :=
  of_row ⟨.addReg, 0x8004, 0xF00F⟩ (by decide) ((Sys2Proof.regRegWord_and_fn ..).trans (by decide)) fun _ => by simp [encodeWord, assemble]

theorem subReg (x y : Reg) : Statement (.subReg x y) :=
  of_row ⟨.subReg, 0x8005, 0xF00F⟩ (by decide) ((Sys2Proof.regRegWord_and_fn ..).trans (by decide)) fun _ => by simp [encodeWord, assemble]

theorem ldI (nnn : BitVec 12) : Statement (.ldI nnn) :=
  of_row ⟨.ldI, 0xA000, 0xF000⟩ (by decide) ((Sys2Proof.addrWord_and ..).trans (by decide)) fun _ => by simp [encodeWord, assemble]

theorem rnd (x : Reg) (kk : Byte) : Statement (.rnd x kk) :=
  of_row ⟨.rnd, 0xC000, 0xF000⟩ (by decide) ((Sys2Proof.regByteWord_and ..).trans (by decide)) fun _ => by simp [encodeWord, assemble]

theorem drw (x y : Reg) (n : Nat) : Statement (.drw x y n) :=
  of_row ⟨.drw, 0xD000, 0xF000⟩ (by decide) ((Sys2Proof.regRegWord_and ..).trans (by decide)) fun hw => by
    have hn : n < 16 := Nat.lt_succ_of_le (by simpa [Instr.wellFormed] using hw)
    simp [encodeWord, assemble, Nat.mod_eq_of_lt hn]

theorem sknp (x : Reg) : Statement (.sknp x) :=
  of_row ⟨.sknp, 0xE0A1, 0xF0FF⟩ (by decide) ((Sys2Proof.regByteWord_and_fn ..).trans (by decide)) fun _ => by simp [encodeWord, assemble]

theorem ldVxDt (x : Reg) : Statement (.ldVxDt x) :=
  of_row ⟨.ldVxDt, 0xF007, 0xF0FF⟩ (by decide) ((Sys2Proof.regByteWord_and_fn ..).trans (by decide)) fun _ => by simp [encodeWord, assemble]

theorem ldDtVx (x : Reg) : Statement (.ldDtVx x) :=
  of_row ⟨.ldDtVx, 0xF015, 0xF0FF⟩ (by decide) ((Sys2Proof.regByteWord_and_fn ..).trans (by decide)) fun _ => by simp [encodeWord, assemble]

theorem ldStVx (x : Reg) : Statement (.ldStVx x) :=
  of_row ⟨.ldStVx, 0xF018, 0xF0FF⟩ (by decide) ((Sys2Proof.regByteWord_and_fn ..).trans (by decide)) fun _ => by simp [encodeWord, assemble]

theorem ldF (x : Reg) : Statement (.ldF x) :=
  of_row ⟨.ldF, 0xF029, 0xF0FF⟩ (by decide) ((Sys2Proof.regByteWord_and_fn ..).trans (by decide)) fun _ => by simp [encodeWord, assemble]

theorem ldB (x : Reg) : Statement (.ldB x) :=
  of_row ⟨.ldB, 0xF033, 0xF0FF⟩ (by decide) ((Sys2Proof.regByteWord_and_fn ..).trans (by decide)) fun _ => by simp [encodeWord, assemble]

theorem ldVxI (x : Reg) : Statement (.ldVxI x) :=
  of_row ⟨.ldVxI, 0xF065, 0xF0FF⟩ (by decide) ((Sys2Proof.regByteWord_and_fn ..).trans (by decide)) fun _ => by simp [encodeWord, assemble]

end Sys2Proof.Laws.DecodeEncode
end

