-- ==== Sys2Proof/Laws/Step.lean ====
section
/-! SUPPORT. What a cycle can do: the fetch, the two ways an instruction ends, and the inversion of `step`. -/

namespace Sys2Proof.Machine

/-! ## The fetch (20_memory.md R53) -/

theorem State.fetch_of_le (s : State) (h : s.pc.toNat + 1 ≤ Config.lastAddr) : s.fetch = .ok (s.wordAt s.pc.toNat) := by
  simp [State.fetch, State.memRead_of_le s (by omega : s.pc.toNat ≤ Config.lastAddr), State.memRead_of_le s h, State.wordAt]

theorem State.fetch_of_lt (s : State) (h : Config.lastAddr < s.pc.toNat) : s.fetch = .error ⟨.memoryBounds, s.pc⟩ := by
  simp [State.fetch, State.memRead_of_lt s h]

theorem State.fetch_of_eq (s : State) (h : s.pc.toNat = Config.lastAddr) :
    s.fetch = .error ⟨.memoryBounds, firstAddrPastMemory⟩ := by
  have h' : Config.lastAddr < s.pc.toNat + 1 := by omega
  have e : BitVec.ofNat 16 (s.pc.toNat + 1) = firstAddrPastMemory := by rw [h]; rfl
  simp [State.fetch, State.memRead_of_le s h.le, State.memRead_of_lt s h', e]

/-! ## Execute -/

/-- Two answers that are both next states are the same state. -/
theorem next_inj {s t : State} (h : (.next s : Answer) = .next t) : t = s := (Host.Outcome.next.inj h).symm

/-- `t` is `s` with a fault taken. -/
def State.RaisedFrom (t s : State) : Prop := ∃ c w, t = s.raise c w

/-- An Execute that answers a next state either took a fault on the state it began with, or left the run status alone
(40_cycle.md R87). -/
theorem exec_next_cases {i : Instr} {s t : State} (h : exec i s = .next t) :
    t.RaisedFrom s ∨ (t.halted = s.halted ∧ t.fault = s.fault) := by
  cases i with
  | ret =>
    simp only [exec, execRet] at h
    split at h
    · exact .inl ⟨_, _, next_inj h⟩
    · simp only [State.popAndGo] at h
      split at h
      · exact .inr (by simp [next_inj h])
      · cases h
  | call nnn =>
    simp only [exec, execCall] at h
    split at h
    · exact .inl ⟨_, _, next_inj h⟩
    · simp only [State.pushPcAndGo] at h
      split at h
      · exact .inr (by simp [next_inj h])
      · cases h
  | drw x y n =>
    simp only [exec, execDrw] at h
    split at h
    · obtain ⟨V, fb, e⟩ := (s.drawsOnly_drawSprite x y n).rest
      exact .inr (by simp [next_inj h, e])
    · exact .inl ⟨_, _, next_inj h⟩
  | sknp x =>
    simp only [exec, execSknp] at h
    split at h
    · exact .inr (by simp [next_inj h])
    · exact .inl ⟨_, _, next_inj h⟩
  | ldB x =>
    simp only [exec, execLdB] at h
    split at h
    · exact .inr (by simp [next_inj h])
    · exact .inl ⟨_, _, next_inj h⟩
  | ldVxI x =>
    simp only [exec, execLdVxI] at h
    split at h
    · obtain ⟨V, e⟩ := s.loadRegs_eq (x.val + 1)
      exact .inr (by simp [next_inj h, e])
    · exact .inl ⟨_, _, next_inj h⟩
  | jp | seImm | sneImm | ldImm | addImm | ldReg | andReg | addReg | subReg | ldI | rnd | ldVxDt | ldDtVx | ldStVx | ldF =>
    exact .inr (by rw [next_inj h]; exact ⟨rfl, rfl⟩)

/-! ## The cycle (40_cycle.md R81) -/

/-- A halted machine does not change (60_exceptions.md R122). -/
theorem step_of_halted (s : State) (h : s.halted = true) : step s = .next s := by simp [step, h]

/-- A fetch outside memory is taken as a fault. -/
theorem step_of_fetch_error (s : State) (h : s.halted = false) {r : FaultRecord} (hf : s.fetch = .error r) :
    step s = .next (s.raise r.cause r.info) := by
  simp [step, h, hf]

/-- An illegal word is taken as a decode fault (60_exceptions.md R117). -/
theorem step_of_illegal (s : State) (h : s.halted = false) (hp : s.pc.toNat + 1 ≤ Config.lastAddr)
    (hd : decodeWord (s.wordAt s.pc.toNat) = none) : step s = .next (s.raise .decodeFault (s.wordAt s.pc.toNat)) := by
  simp [step, h, State.fetch_of_le s hp, hd]

/-- A run goes on from the state its first cycle leaves. -/
theorem run_succ {s t : State} (h : step s = .next t) (k : Nat) :
    Host.Core.run Sys2Proof.core (k + 1) s = Host.Core.run Sys2Proof.core k t := by
  have e : Sys2Proof.core.step s = .next t := h
  simp only [Host.Core.run, e]

/-- Everything a cycle that answers a next state can be. -/
theorem step_cases {s t : State} (h : step s = .next t) :
    (s.halted = true ∧ t = s) ∨
    (s.halted = false ∧
      ((∃ r, s.fetch = .error r ∧ t = s.raise r.cause r.info) ∨
       (s.pc.toNat + 1 ≤ Config.lastAddr ∧ decodeWord (s.wordAt s.pc.toNat) = none ∧
          t = s.raise .decodeFault (s.wordAt s.pc.toNat)) ∨
       (∃ i u, s.Runs i ∧ exec i s = .next u ∧ t = if u.halted then u else u.timerStep))) := by
  by_cases hh : s.halted = true
  · rw [step_of_halted s hh] at h
    cases h; exact .inl ⟨hh, rfl⟩
  have hh : s.halted = false := by simpa using hh
  refine .inr ⟨hh, ?_⟩
  by_cases hp : s.pc.toNat + 1 ≤ Config.lastAddr
  · right
    simp only [step, hh, Bool.false_eq_true, if_false, State.fetch_of_le s hp] at h
    split at h
    · rename_i hd
      cases h; exact .inl ⟨hp, hd, rfl⟩
    · rename_i i hd
      cases hx : exec i s with
      | next u => rw [hx] at h; cases h; exact .inr ⟨i, u, ⟨hh, hp, hd⟩, hx, rfl⟩
      | fault r => rw [hx] at h; cases h
      | refused r => rw [hx] at h; cases h
  · left
    cases hf : s.fetch with
    | error r => rw [step_of_fetch_error s hh hf] at h; cases h; exact ⟨r, rfl, rfl⟩
    | ok w =>
      rcases Nat.lt_or_ge Config.lastAddr s.pc.toNat with hl | hl
      · rw [State.fetch_of_lt s hl] at hf; cases hf
      · rw [State.fetch_of_eq s (by omega)] at hf; cases hf

end Sys2Proof.Machine
end

