-- ==== Sys2Proof/Tests/Slice0.lean ====
section
/-! SUPPORT. Tests of the model against the vectors of 95_test_vectors.md (each names its own), and for every statement with
hypotheses a state that meets them. -/

namespace Sys2Proof.Tests

open Sys2Proof.Machine

/-! ## Helpers -/

/-- The machine after reset with one word at 0x200. -/
def running (w : Nat) : State := State.reset.withFetchWord 16 w

/-- The same with two registers set. -/
def withRegs (w : Nat) (x : Reg) (vx : Byte) (y : Reg) (vy : Byte) : State := ((running w).setV x vx).setV y vy

/-- The answer is a next state of which the check holds. -/
def after (a : Answer) (check : State → Bool) : Bool :=
  match a with
  | .next t => check t
  | .fault _ => false
  | .refused _ => false

/-- The answer is a next state that has taken this fault, at this pc. -/
def faultsAt (a : Answer) (pc : Word) (c : FaultCause) (info : Word) : Bool :=
  after a fun t => t.halted && t.fault == some ⟨c, info⟩ && t.pc == pc

/-! ## Decoding: words written out from 30_encoding.md R73 -/

theorem test_decode_control : decode [0x00, 0xEE] = .ok (.ret, []) ∧ decode [0x12, 0x04, 0xFF] = .ok (.jp 0x204, [0xFF]) ∧
    decode [0x22, 0x10] = .ok (.call 0x210, []) ∧ decode [0x3F, 0x01] = .ok (.seImm 15 0x01, []) ∧
    decode [0x43, 0x11] = .ok (.sneImm 3 0x11, []) := by decide

theorem test_decode_registers : decode [0x6A, 0x7B] = .ok (.ldImm 10 0x7B, []) ∧ decode [0x70, 0xFF] = .ok (.addImm 0 0xFF, []) ∧
    decode [0x81, 0x20] = .ok (.ldReg 1 2, []) ∧ decode [0x82, 0x32] = .ok (.andReg 2 3, []) ∧
    decode [0x82, 0x34] = .ok (.addReg 2 3, []) ∧ decode [0x80, 0x15] = .ok (.subReg 0 1, []) ∧
    decode [0xC0, 0x0F] = .ok (.rnd 0 0x0F, []) := by decide

theorem test_decode_memory_draw : decode [0xA3, 0x00] = .ok (.ldI 0x300, []) ∧ decode [0xF0, 0x29] = .ok (.ldF 0, []) ∧
    decode [0xFA, 0x33] = .ok (.ldB 10, []) ∧ decode [0xF2, 0x65] = .ok (.ldVxI 2, []) ∧
    decode [0xD1, 0x25] = .ok (.drw 1 2 5, []) := by decide

theorem test_decode_input_timers : decode [0xE4, 0xA1] = .ok (.sknp 4, []) ∧ decode [0xF1, 0x07] = .ok (.ldVxDt 1, []) ∧
    decode [0xF0, 0x15] = .ok (.ldDtVx 0, []) ∧ decode [0xF2, 0x18] = .ok (.ldStVx 2, []) := by decide

/-- V-CY8 and V-CY9: omitted instructions, and near misses of legal rows. -/
theorem test_decode_illegal : ([0x0000, 0x00E0, 0x0123, 0x5120, 0x8011, 0x8013, 0x8016, 0x8017, 0x801E, 0x9120, 0xB123, 0xE19E,
    0xF10A, 0xF11E, 0xF155, 0x00EF, 0x8019, 0xE0A2, 0xF008, 0xF066] : List Word).all (fun w => (decodeWord w).isNone) = true := by decide

theorem test_decode_rejects_by_name : decode [] = .error .truncated ∧ decode [0x12] = .error .truncated ∧
    decode [0x00, 0xE0] = .error (.illegal 0x00E0) := by decide

theorem test_decodeTableWord : decodeTableWord 16 0x1204 = some (.jp 0x204) ∧ decodeTableWord 16 0x00EE = some .ret ∧
    decodeTableWord 16 0x0000 = none := by decide

/-- The one check of wellFormed, at both sides of its bound (30_encoding.md R70). -/
theorem test_wellFormed_refuses : (Instr.drw 0 0 16).wellFormed = false ∧ (Instr.drw 0 0 15).wellFormed = true := by decide

/-! ## Cycle (95_test_vectors.md 2.1) -/

/-- V-CY2: an odd pc. -/
theorem test_fetch_odd : after (step ({ State.reset with pc := 0x201 }.withFetchWord 16 0x6012))
    (fun t => t.getV 0 == 0x12 && t.pc == 0x203) = true := by decide

/-- V-CY4, V-CY5, V-CY6. -/
theorem test_fetch_bounds : faultsAt (step { State.reset with pc := 0xFFF }) 0xFFF .memoryBounds 0x1000 = true ∧
    faultsAt (step { State.reset with pc := 0x1000 }) 0x1000 .memoryBounds 0x1000 = true ∧
    faultsAt (step { State.reset with pc := 0x1002 }) 0x1002 .memoryBounds 0x1002 = true := by decide

/-- V-CY7 and V-CY12: an illegal word, and no timer step. -/
theorem test_illegal_word : faultsAt (step State.reset) 0x200 .decodeFault 0x0000 = true ∧
    after (step { State.reset with DT := 5, ST := 5 }) (fun t => t.DT == 5 && t.ST == 5) = true := by decide

/-- V-CY13 and V-CY14. -/
theorem test_sound_expired : after (step { running 0x6000 with ST := 1 }) (fun t => t.ST == 0 && t.soundExpired == 1) = true ∧
    after (step { running 0x6000 with ST := 0 }) (fun t => t.ST == 0 && t.soundExpired == 0) = true := by decide

/-! ## Control flow (2.2) -/

/-- V-CF1. -/
theorem test_ret : after (step { running 0x00EE with sp := 1, stack := State.reset.stack.set 0 0x204 })
    (fun t => t.pc == 0x206 && t.sp == 0 && t.stack[0] == 0x204) = true := by decide

/-- V-CF2. -/
theorem test_ret_empty : faultsAt (step (running 0x00EE)) 0x200 .stackUnderflow 0x00EE = true := by decide

/-- V-CF5. -/
theorem test_jp : after (step (running 0x1301)) (fun t => t.pc == 0x301) = true := by decide

/-- V-CF8. -/
theorem test_call_last_slot : after (step { running 0x2400 with sp := 0xF })
    (fun t => t.stack[15] == 0x200 && t.sp == 16 && t.pc == 0x400) = true := by decide

/-- V-CF9. -/
theorem test_call_full : faultsAt (step { running 0x2400 with sp := 16 }) 0x200 .stackOverflow 0x2400 = true := by decide

/-- V-CF12. -/
theorem test_se : after (step ((running 0x3F01).setV 15 1)) (fun t => t.pc == 0x204) = true := by decide

/-- V-CF13: a skip past memory. -/
theorem test_se_top : after (step ({ State.reset with pc := 0xFFE }.withFetchWord 16 0x3000)) (fun t => t.pc == 0x1002) = true := by
  decide

/-- V-CF14. -/
theorem test_sne : after (step ((running 0x4311).setV 3 0x10)) (fun t => t.pc == 0x204) = true := by decide

/-- V-CF16. -/
theorem test_sne_equal : after (step ((running 0x43FF).setV 3 0xFF)) (fun t => t.pc == 0x202) = true := by decide

/-! ## Register arithmetic (2.3) -/

/-- V-AR2. -/
theorem test_ldImm : after (step (running 0x6F01)) (fun t => t.getV 15 == 1 && t.pc == 0x202) = true := by decide

/-- V-AR3. -/
theorem test_addImm_wraps : after (step (withRegs 0x7001 0 0xFF 15 0x55)) (fun t => t.getV 0 == 0 && t.getV 15 == 0x55) = true := by
  decide

/-- V-AR7. -/
theorem test_ldReg : after (step ((running 0x8F00).setV 0 0x07)) (fun t => t.getV 15 == 0x07) = true := by decide

/-- V-AR8. -/
theorem test_andReg : after (step ((withRegs 0x8012 0 0xF0 1 0x3C).setV 15 0x55)) (fun t => t.getV 0 == 0x30 && t.getV 15 == 0x55) = true := by
  decide

/-- V-AR13. -/
theorem test_addReg_vf_dest : after (step (withRegs 0x8F14 15 0xF0 1 0x20)) (fun t => t.getV 15 == 0x10) = true := by decide

/-- V-AR14. -/
theorem test_addReg_vf_source : after (step (withRegs 0x81F4 1 0x10 15 0xFF)) (fun t => t.getV 1 == 0x0F && t.getV 15 == 1) = true := by
  decide

/-- V-AR17 and V-AR19. -/
theorem test_subReg : after (step (withRegs 0x8015 0 5 1 5)) (fun t => t.getV 0 == 0 && t.getV 15 == 0) = true ∧
    after (step (withRegs 0x8015 0 0 1 1)) (fun t => t.getV 0 == 0xFF && t.getV 15 == 0) = true := by decide

/-- V-AR21 under both orders. -/
theorem test_subReg_orders :
    after (step (withRegs 0x81F5 1 0x10 15 3)) (fun t => t.getV 1 == 0x0D && t.getV 15 == 1) = true ∧
    after (step ((withRegs 0x81F5 1 0x10 15 3).withOrder .sequential)) (fun t => t.getV 1 == 0x0F && t.getV 15 == 1) = true := by
  decide

/-- V-AR24. -/
theorem test_rnd : ((running 0xC00F).rndWith 0 0x0F 0xA7).getV 0 = 0x07 := by decide

/-- V-AR26: kk = 0 gives 0 for every byte drawn. -/
theorem test_rnd_zero_mask : ∃ t, exec (.rnd 0 0) State.reset = .next t ∧ t.getV 0 = 0 := by
  refine ⟨_, rfl, ?_⟩
  show (State.reset.rndWith 0 0 (Config.rndByte 0)).getV 0 = 0
  simp

/-! ## Index and memory (2.4) -/

/-- V-IM2. -/
theorem test_ldI : after (step (running 0xAFFF)) (fun t => t.I == 0xFFF) = true := by decide

/-- V-IM4. -/
theorem test_ldF : after (step ((running 0xF029).setV 0 0xFF)) (fun t => t.I == 0x4FB) = true := by decide

/-- V-IM7: the top of memory. -/
theorem test_ldB : after (step { (running 0xF033).setV 0 0xFF with I := 0xFFD })
    (fun t => t.mem.read 0xFFD == 2 && t.mem.read 0xFFE == 5 && t.mem.read 0xFFF == 5) = true := by decide

/-- V-IM8. -/
theorem test_ldB_bounds : faultsAt (step { (running 0xF033).setV 0 0xFF with I := 0xFFE }) 0x200 .memoryBounds 0x1000 = true ∧
    after (step { (running 0xF033).setV 0 0xFF with I := 0xFFE }) (fun t => t.mem == (running 0xF033).mem && t.ST == 0xFF) = true := by
  decide

/-- V-IM11. -/
theorem test_ldVxI : after (step { running 0xF265 with I := 0x300, mem := (running 0xF265).mem.writeList 0x300 [1, 2, 3] })
    (fun t => t.getV 0 == 1 && t.getV 1 == 2 && t.getV 2 == 3 && t.I == 0x300) = true := by decide

/-- V-IM13. -/
theorem test_ldVxI_bounds : faultsAt (step { running 0xF165 with I := 0xFFF }) 0x200 .memoryBounds 0x1000 = true := by decide

/-- A memory is canonical after reset, and a write of the unlisted value removes its cell. -/
theorem test_memory_canonical : Memory.wf State.reset.mem ∧ (Memory.write [(5, 1), (7, 2)] 5 0) = [(7, 2)] ∧
    (Memory.write [(5, 1), (7, 2)] 6 3) = [(5, 1), (6, 3), (7, 2)] := by decide

/-! ## Draw (2.5) -/

/-- The start of V-DR10 and V-DR12. -/
def vDr10 (o : OperandOrder) : State :=
  ({ ((running 0xDF12).setV 15 3).flipFb 0 with
      I := 0x300, mem := (running 0xDF12).mem.writeList 0x300 [0xC0, 0xC0] }.flipFb 3).withOrder o

/-- V-DR10. -/
theorem test_drw_latched : after (step (vDr10 .latched))
    (fun t => t.getFb 0 && !t.getFb 1 && !t.getFb 3 && t.getFb 4 && t.getFb 67 && t.getFb 68 && t.getV 15 == 1 && t.draw) = true := by
  decide

/-- V-DR12. -/
theorem test_drw_sequential : after (step (vDr10 .sequential))
    (fun t => !t.getFb 0 && !t.getFb 1 && t.getFb 2 && t.getFb 3 && t.getFb 65 && t.getFb 66 && t.getV 15 == 1) = true := by decide

/-! ## Input and timers (2.6) -/

/-- V-IT1 and V-IT3. -/
theorem test_sknp : after (step ((running 0xE4A1).setV 4 5)) (fun t => t.pc == 0x204) = true ∧
    after (step (((running 0xE0A1).setV 0 15).hostAct (.writeKey 15 true))) (fun t => t.pc == 0x202) = true := by decide

/-- V-IT4. -/
theorem test_sknp_index : faultsAt (step ((running 0xE0A1).setV 0 0x10)) 0x200 .keyIndex 0x0010 = true := by decide

/-- V-IT5. -/
theorem test_ldVxDt : after (step { running 0xF107 with DT := 2 }) (fun t => t.getV 1 == 2 && t.DT == 1) = true := by decide

/-- V-IT8. -/
theorem test_ldDtVx : after (step ((running 0xF015).setV 0 1)) (fun t => t.DT == 0) = true := by decide

/-- V-IT11. -/
theorem test_ldStVx : after (step ((running 0xF018).setV 0 1)) (fun t => t.ST == 0 && t.soundExpired == 1) = true := by decide

/-! ## Loading -/

/-- 70_reset_and_hazards.md R140, and glyph A of 10_state.md R36 at 0x032. -/
theorem test_boot : (match boot Config.default [0x12, 0x00] with
    | .ok s => s.mem.read 0x032 == 0xF0 && s.mem.read 0x036 == 0x90 && s.mem.read 0x200 == 0x12 && s.mem.read 0x201 == 0
    | .error _ => false) = true := by decide

/-! ## Witnesses: for every statement with hypotheses, states and operands that meet them -/

theorem exists_next {a : Answer} {c : State → Bool} (h : after a c = true) : ∃ t, a = .next t ∧ c t = true := by
  cases a with
  | next t => exact ⟨t, rfl, h⟩
  | fault r => cases h
  | refused r => cases h

/-- A machine parked at 0x200 by JP 0x200. -/
def parked : State := running 0x1200

theorem inv_parked : Inv parked := ⟨by decide, by decide, by decide, by decide, by decide, by decide⟩

theorem runs_parked : parked.Runs (.jp 0x200) := by unfold State.Runs; decide

/-- A halted machine: the one of test_illegal_word after its cycle. -/
def stopped : State := State.reset.raise .decodeFault 0x0000

theorem witness_DecodeEncodeAgree : (Instr.drw 15 15 15).wellFormed = true ∧ (Instr.drw 0 0 0).wellFormed = true ∧
    (Instr.ldI 0xFFF).wellFormed = true := by decide

theorem witness_EncodeDecodeAgree : decodeWord 0xDFFF = some (.drw 15 15 15) := by decide

theorem witness_OmittedChip8WordsFault : (running 0x0000).halted = false ∧ (running 0x0000).pc.toNat ≤ 0xFFE ∧
    OmittedChip8Word ((running 0x0000).wordAt (running 0x0000).pc.toNat) :=
  ⟨rfl, by decide, .inl ⟨0, by decide, by decide⟩⟩

theorem witness_OmittedChip8Word_classes : OmittedChip8Word 0x0FFF ∧ OmittedChip8Word 0x5FF0 ∧ OmittedChip8Word 0x8FFE ∧
    OmittedChip8Word 0x9FF0 ∧ OmittedChip8Word 0xBFFF ∧ OmittedChip8Word 0xEF9E ∧ OmittedChip8Word 0xFF55 :=
  ⟨.inl ⟨0xFFF, by decide, by decide⟩, .inr (.inl ⟨15, 15, by decide⟩), .inr (.inr (.inl ⟨15, 15, 0xE, by decide, by decide⟩)),
    .inr (.inr (.inr (.inl ⟨15, 15, by decide⟩))), .inr (.inr (.inr (.inr (.inl ⟨0xFFF, by decide⟩)))),
    .inr (.inr (.inr (.inr (.inr (.inl ⟨15, by decide⟩))))),
    .inr (.inr (.inr (.inr (.inr (.inr ⟨15, 0x55, by decide, by decide⟩)))))⟩

theorem witness_StepRunsDecodedInstruction : parked.halted = false ∧ parked.pc.toNat ≤ 0xFFE ∧
    decode [parked.mem.read parked.pc.toNat, parked.mem.read (parked.pc.toNat + 1)] = .ok (.jp 0x200, []) ∧
    after (exec (.jp 0x200) parked) (fun t => !t.halted) = true := by decide

theorem witness_StepRunsDecodedInstruction_faults :
    decode [(running 0x00EE).mem.read 0x200, (running 0x00EE).mem.read 0x201] = .ok (.ret, []) ∧
    after (exec .ret (running 0x00EE)) (fun t => t.halted) = true ∧
    exec .ret { running 0x00EE with sp := 17 } = .fault (.noStackSlot 16) := ⟨by decide, by decide, rfl⟩

theorem witness_FetchFormsBigEndianWordOrFaults : 0xFFF < ({ State.reset with pc := 0x1000 } : State).pc.toNat ∧
    ({ State.reset with pc := 0xFFF } : State).pc.toNat = 0xFFF ∧ ({ State.reset with pc := 0xFFE } : State).pc.toNat < 0xFFF ∧
    State.reset.halted = false := by decide

theorem witness_IllegalWordRaisesDecodeFault : State.reset.halted = false ∧ State.reset.pc.toNat ≤ 0xFFE ∧
    ∀ r ∈ opcodeTable, State.reset.wordAt State.reset.pc.toNat &&& r.mask ≠ r.pattern := by decide

theorem witness_FaultingCycleIsPrecise : State.reset.halted = false ∧ ∃ t, step State.reset = .next t ∧ t.halted = true :=
  ⟨rfl, exists_next (c := fun t => t.halted) (by decide)⟩

theorem witness_HaltedIsAbsorbing : stopped.halted = true := rfl

theorem witness_FaultRecordFollowsPriority : Inv parked ∧ parked.halted = false ∧ (∃ t, step parked = .next t) :=
  ⟨inv_parked, rfl, (exists_next (a := step parked) (c := fun _ => true) (by decide)).imp fun _ h => h.1⟩

/-- What a parked machine does in one cycle. -/
theorem step_parked : step parked = .next { parked with ST := 0xFE } := rfl

theorem witness_ObligationsKeepRunFaultFree : Inv parked ∧ parked.halted = false ∧
    ∀ k u, k ≤ 1 → Host.Core.run Sys2Proof.core k parked = .next u → State.MeetsObligations u := by
  refine ⟨inv_parked, rfl, fun k u hk h => ?_⟩
  match k, hk with
  | 0, _ => cases h; exact ⟨_, runs_parked, trivial⟩
  | 1, _ => rw [run_succ step_parked] at h; cases h; exact ⟨_, runs_parked, trivial⟩

theorem witness_CompletedCycleStepsTimers : parked.Runs (.jp 0x200) ∧ ∃ u, exec (.jp 0x200) parked = .next u ∧ (!u.halted) = true :=
  ⟨runs_parked, exists_next (c := fun u => !u.halted) (by decide)⟩

theorem witness_SoundExpiredOnlyFromOneToZero :
    (∃ t, step { parked with ST := 1 } = .next t ∧ (t.soundExpired == 1) = true) ∧
    (∃ t, step parked = .next t ∧ (t.soundExpired == 0) = true) :=
  ⟨exists_next (c := fun t => t.soundExpired == 1) (by decide), exists_next (c := fun t => t.soundExpired == 0) (by decide)⟩

/-- Two cycles of a parked machine whose sound timer stands at 1. -/
def soundRun : Nat → State
  | 0 => { parked with ST := 1 }
  | _ + 1 => { parked with ST := 0, soundExpired := 1 }

theorem witness_SoundExpiresInCycleNumberST : ∀ k < 2, step (soundRun k) = .next (soundRun (k + 1)) ∧
    (soundRun (k + 1)).halted = false ∧ ∀ x, ¬ (soundRun k).Runs (.ldStVx x) := by
  have hd : ∀ s : State, s.mem = parked.mem → s.pc = parked.pc → ∀ x, ¬ s.Runs (.ldStVx x) := by
    intro s hm hp x h
    have e : decodeWord (s.wordAt s.pc.toNat) = some (.jp 0x200) := by rw [hp, State.wordAt, hm]; exact runs_parked.2.2
    have := e.symm.trans h.2.2
    cases this
  intro k hk
  match k, hk with
  | 0, _ => exact ⟨rfl, rfl, hd _ rfl rfl⟩
  | 1, _ => exact ⟨rfl, rfl, hd _ rfl rfl⟩

theorem witness_RetPopsTheCallSite : State.reset.sp.toNat = 0 ∧ ({ State.reset with sp := 1 } : State).sp.toNat = (0 : Fin 16).val + 1 ∧
    ({ State.reset with sp := 16 } : State).sp.toNat = (15 : Fin 16).val + 1 := by decide

theorem witness_CallPushesTheCallSite : ({ State.reset with sp := 16 } : State).sp.toNat = 16 ∧
    State.reset.sp.toNat = (0 : Fin 16).val ∧ ({ State.reset with sp := 15 } : State).sp.toNat = (15 : Fin 16).val := by decide

theorem witness_CallThenRetResumesPastTheCall : ({ State.reset with sp := 15 } : State).sp.toNat < 16 ∧
    ∃ t u : State, exec (.call 0x400) { State.reset with sp := 15 } = .next t ∧ u.sp = t.sp ∧ u.stack = t.stack :=
  ⟨by decide, _, _, rfl, rfl, rfl⟩

theorem witness_AbsentStackSlotStops : 16 < ({ State.reset with sp := 17 } : State).sp.toNat := by decide

theorem witness_SkipsCompareRegisterWithByte : State.reset.getV 15 = 0 ∧ State.reset.getV 15 ≠ 1 := by decide

theorem witness_SubWritesGreaterThenDifference : State.reset.config.vfOperandOrder = .latched ∧
    (State.reset.withOrder .sequential).config.vfOperandOrder = .sequential ∧ (0 : Reg) ≠ VF := by decide

theorem witness_RndMasksAFreeByte : (0x0F : Byte).getLsbD 7 = false := by decide

theorem witness_LdBStoresDecimalDigits : State.reset.mem.wf ∧ 0xFFF < ({ State.reset with I := 0xFFE } : State).I.toNat + 2 ∧
    ({ State.reset with I := 0xFFD } : State).I.toNat + 2 ≤ 0xFFF := by decide

theorem witness_LdVxILoadsRegisters : 0xFFF < ({ State.reset with I := 0xFFF } : State).I.toNat + (1 : Reg).val ∧
    ({ State.reset with I := 0xFFF } : State).I.toNat + (0 : Reg).val ≤ 0xFFF ∧ (0 : Reg).val < (15 : Reg).val := by decide

theorem witness_DrwFaultsPastMemoryElseCompletes : 0xFFF < ({ State.reset with I := 0xFFF } : State).I.toNat + 2 - 1 ∧
    ({ State.reset with I := 0xFFF } : State).I.toNat + 1 - 1 ≤ 0xFFF := by decide

/-- One sprite row at the top of memory whose leftmost bit falls on cell 0. -/
def oneBit : State := { running 0xD011 with I := 0xFFF, mem := (running 0xD011).mem.write 0xFFF 0x80 }

theorem witness_DrwFlipsExactlyTheSpriteCells : oneBit.I.toNat + 1 - 1 ≤ 0xFFF ∧ oneBit.config.vfOperandOrder = .latched ∧
    SpriteHits oneBit 0 0 1 0 ∧ ¬ SpriteHits oneBit 0 0 1 64 ∧ (oneBit.flipFb 0).getFb 0 = true := by
  refine ⟨by decide, by decide, ⟨0, 0, by decide, by decide, by decide, by decide⟩, ?_, by decide⟩
  rintro ⟨row, col, hr, hc, -, h⟩
  change (0 + col + (0 + row) * 64) % 2048 = 64 at h
  omega

theorem witness_DrwFlips_sequential : (oneBit.withOrder .sequential).config.vfOperandOrder = .sequential ∧ (0 : Reg) ≠ VF ∧ (1 : Reg) ≠ VF := by
  decide

theorem witness_DrwSequentialReadsVfAsCollisionSoFar :
    (vDr10 .sequential).I.toNat + 2 - 1 ≤ 0xFFF ∧ (vDr10 .sequential).config.vfOperandOrder = .sequential := by decide

theorem witness_DrawingTwiceRestoresTheFramebuffer : oneBit.I.toNat + 1 - 1 ≤ 0xFFF ∧ oneBit.config.vfOperandOrder = .latched ∧
    ∃ t, exec (.drw 0 1 1) oneBit = .next t ∧ (t.config == oneBit.config && t.getV 0 == oneBit.getV 0 && t.getV 1 == oneBit.getV 1 &&
      t.I == oneBit.I && t.mem == oneBit.mem) = true :=
  ⟨by decide, by decide, exists_next (c := fun t => t.config == oneBit.config && t.getV 0 == oneBit.getV 0 &&
    t.getV 1 == oneBit.getV 1 && t.I == oneBit.I && t.mem == oneBit.mem) (by decide)⟩

theorem witness_SpriteBitCoordinates : cellIndex 0xFF 0xFF 14 7 = cellIndex 0xFF 0xFF 14 7 ∧ 14 < 15 ∧ 7 < 8 := by decide

theorem witness_SknpSkipsIfKeyReleased : 0xF < (State.reset.setV 0 0x10).getV 0 ∧
    ((State.reset.setV 0 0x0F).getV 0).toNat = (15 : Fin 16).val ∧ State.reset.getKey 15 = false ∧
    (State.reset.hostAct (.writeKey 15 true)).getKey 15 = true := by decide

theorem witness_TimerWriteCountsDownInItsOwnCycle : (running 0xF015).Runs (.ldDtVx 0) ∧ (running 0xF018).Runs (.ldStVx 0) ∧
    (running 0xF007).Runs (.ldVxDt 0) := by unfold State.Runs; decide

theorem witness_OnlyNamedInstructionsWriteEachPart :
    (∃ t, exec (.ldF 0) ((running 0xF029).setV 0 1) = .next t ∧ (t.I != 0) = true) ∧
    (∃ t, exec (.ldVxI 15) { running 0xFF65 with I := 0x1F1 } = .next t ∧ (t.getV 15 != 0) = true) ∧
    (∃ t, exec .ret State.reset = .next t ∧ (t.halted && t.fault != none) = true) :=
  ⟨exists_next (c := fun t => t.I != 0) (by decide), exists_next (c := fun t => t.getV 15 != 0) (by decide),
    exists_next (c := fun t => t.halted && t.fault != none) (by decide)⟩

theorem witness_VfIsWrittenAsFlagOnlyByThree : ∃ t, exec (.ldImm 15 1) State.reset = .next t ∧ (t.getV VF != State.reset.getV VF) = true :=
  exists_next (c := fun t => t.getV VF != State.reset.getV VF) (by decide)

theorem witness_DrawFlagSetByDrwClearedByHost : oneBit.Runs (.drw 0 1 1) ∧
    (∃ t, step oneBit = .next t ∧ (!t.halted && t.draw != oneBit.draw) = true) ∧
    (∃ t, step { oneBit with draw := true } = .next t ∧ t.draw = true) :=
  ⟨by unfold State.Runs; decide, exists_next (c := fun t => !t.halted && t.draw != oneBit.draw) (by decide),
    exists_next (c := fun t => t.draw) (by decide)⟩

theorem witness_StepKeepsInv : Inv parked ∧ ∃ t, step parked = .next t := ⟨inv_parked, _, step_parked⟩

/-- A booted machine that parks, after a cycle and a press of a key. -/
theorem witness_ReachableStatesKeepTheRanges : ∃ s, Reachable s ∧ s.getKey 5 = true := by
  obtain ⟨s, hs⟩ : ∃ s, boot Config.default [0x12, 0x00] = .ok s := ⟨_, rfl⟩
  have hr : Reachable s := .boot _ _ _ hs
  exact ⟨_, .host s (.writeKey 5 true) hr, by rw [State.getKey_writeKey]; rfl⟩

theorem witness_EveryCycleAnswersANextState : Inv parked := inv_parked

theorem witness_OperandOrderMattersOnlyForSubAndDrwNamingVf :
    ((State.reset.setV VF 0x10).setV 1 0x03).getV VF = 0x10 ∧ ((State.reset.setV VF 0x10).setV 1 0x03).getV 1 = 0x03 ∧
    (∀ x y, Instr.subReg 0 1 = .subReg x y → x ≠ VF ∧ y ≠ VF) ∧ (∃ t, exec (.subReg 0 1) State.reset = .next t) ∧
    exec (.call 0x400) { State.reset with sp := 17 } = .fault (.noStackSlot 17) :=
  ⟨by decide, by decide, by rintro x y h; cases h; decide, ⟨_, rfl⟩, rfl⟩

theorem witness_KeyLatchIsReadOnlyBySknp : (∀ x, Instr.jp 0x200 ≠ .sknp x) ∧ ∃ t, exec (.jp 0x200) parked = .next t :=
  ⟨nofun, _, rfl⟩

theorem witness_SoundTimerIsNeverRead : (∃ t, exec (.jp 0x200) parked = .next t) ∧ (∃ t, exec (.ldStVx 0) parked = .next t) ∧
    ∀ x, Instr.jp 0x200 ≠ .ldStVx x := ⟨⟨_, rfl⟩, ⟨_, rfl⟩, nofun⟩

theorem witness_StoredDigitsAreFetchedNext : ({ running 0xF033 with I := 0x202 } : State).mem.wf ∧
    ({ running 0xF033 with I := 0x202 } : State).Runs (.ldB 0) ∧ ({ running 0xF033 with I := 0x202 } : State).I.toNat = 0x200 + 2 := by
  unfold State.Runs; decide

theorem witness_ParkedMachineStaysParked : parked.ParkedAt 0x200 ∧ { parked with halted := true }.ParkedAt 0x200 := by unfold State.ParkedAt; decide

theorem witness_LoadsPlaceTheirBytes : State.reset.mem.wf ∧ (List.replicate 3584 (0 : Byte)).length ≤ 3584 ∧
    3584 < (List.replicate 3585 (0 : Byte)).length := 
  ⟨by decide, List.length_replicate.le, (Nat.lt_succ_self 3584).trans_eq List.length_replicate.symm⟩

theorem witness_BootGivesTheLaunchState : (List.replicate 3584 (0xFF : Byte)).length ≤ 3584 := List.length_replicate.le

theorem witness_CanonicalMemoriesThatReadAlikeAreEqual : Memory.wf [(0, 1), (0xFFF, 2)] ∧
    Memory.write [(0, 1)] 0xFFF 2 = [(0, 1), (0xFFF, 2)] := by decide

theorem witness_PlacedWordIsFetchedNext : ({ State.reset with pc := 0x1002, halted := true } : State).mem.wf := by decide

end Sys2Proof.Tests
end

/-! # The rules of the state (10_state.md)

What Execute leaves of each part of the state, the invariant, and what an instruction does not read. -/

namespace Sys2Proof.Machine

/-! ## What the instructions with a check of their own can answer -/

/-- RET underflows on an empty stack, or pops (41_control_flow.md R94). -/
theorem execRet_next_cases {s t : State} (h : execRet s = .next t) :
    t.RaisedFrom s ∨ (s.sp ≠ 0 ∧ ∃ hs : s.sp.toNat - 1 < 16,
      t = State.setPc { s with sp := s.sp - 1 } (s.stack[s.sp.toNat - 1] + 2)) := by
  by_cases h0 : s.sp = 0
  · rw [execRet_of_empty s h0] at h
    exact .inl ⟨_, _, next_inj h⟩
  · rw [execRet_of_pos s h0] at h
    by_cases hs : s.sp.toNat - 1 < 16
    · rw [State.popAndGo_of_lt s hs] at h
      exact .inr ⟨h0, hs, next_inj h⟩
    · rw [State.popAndGo_of_le s (by omega)] at h
      cases h

/-- CALL overflows on a full stack, or pushes (41_control_flow.md R96). -/
theorem execCall_next_cases {nnn : BitVec 12} {s t : State} (h : execCall nnn s = .next t) :
    t.RaisedFrom s ∨ ∃ hs : s.sp.toNat < 16,
      t = State.setPc { s with stack := s.stack.set s.sp.toNat s.pc, sp := s.sp + 1 } (addrOperand nnn) := by
  by_cases h16 : s.sp.toNat = 16
  · rw [execCall_of_full nnn s h16] at h
    exact .inl ⟨_, _, next_inj h⟩
  · rw [execCall_of_ne nnn s h16] at h
    by_cases hs : s.sp.toNat < 16
    · rw [State.pushPcAndGo_of_lt s _ hs] at h
      exact .inr ⟨hs, next_inj h⟩
    · rw [State.pushPcAndGo_of_le s _ (by omega)] at h
      cases h

/-- SKNP faults on a key number above 0xF, or skips or not (45_input_timers.md R112). -/
theorem execSknp_next_cases {x : Reg} {s t : State} (h : execSknp x s = .next t) :
    t.RaisedFrom s ∨ ∃ c, t = s.skipIf c := by
  by_cases hx : (s.getV x).toNat < 16
  · rw [execSknp_of_key x s ⟨_, hx⟩ rfl] at h
    exact .inr ⟨_, next_inj h⟩
  · rw [execSknp_of_lt x s (by omega)] at h
    exact .inl ⟨_, _, next_inj h⟩

/-- DRW faults past memory, or draws and sets the draw flag (44_draw.md R110). -/
theorem execDrw_next_cases {x y : Reg} {n : Nat} {s t : State} (h : execDrw x y n s = .next t) :
    t.RaisedFrom s ∨ ∃ u, s.DrawsOnly u ∧ t = State.advance { u with draw := true } := by
  rw [execDrw] at h
  split at h
  · exact .inr ⟨_, s.drawsOnly_drawSprite x y n, next_inj h⟩
  · exact .inl ⟨_, _, next_inj h⟩

/-- LD B faults past memory, or stores the digits (43_index_memory.md R108). -/
theorem execLdB_next_cases {x : Reg} {s t : State} (h : execLdB x s = .next t) :
    t.RaisedFrom s ∨ (s.I.toNat + 2 ≤ 0xFFF ∧
      t = State.advance { s with mem := s.mem.writeList s.I.toNat (decimalDigits (s.getV x)) }) := by
  rcases Nat.lt_or_ge 0xFFF (s.I.toNat + 2) with hI | hI
  · rw [execLdB_of_lt x s hI] at h
    exact .inl ⟨_, _, next_inj h⟩
  · rw [execLdB_of_fits x s hI] at h
    exact .inr ⟨hI, next_inj h⟩

/-- LD Vx,[I] faults past memory, or loads V0 to V[x] (43_index_memory.md R109). -/
theorem execLdVxI_next_cases {x : Reg} {s t : State} (h : execLdVxI x s = .next t) :
    t.RaisedFrom s ∨ t = (s.loadRegs (x.val + 1)).advance := by
  rw [execLdVxI] at h
  split at h
  · exact .inr (next_inj h)
  · exact .inl ⟨_, _, next_inj h⟩

/-! ## Who writes each part of the state -/

/-- Settles O38: an instruction with a check takes a fault or completes; the others complete; and each completed state is
read part by part. -/
theorem onlyNamedInstructionsWriteEachPart : Obligations.OnlyNamedInstructionsWriteEachPart := by
  intro i s t h
  cases i with
  | ret =>
    obtain ⟨c, w, rfl⟩ | ⟨-, -, rfl⟩ := execRet_next_cases h
    · simp [HasCheck]
    · simp [State.getV]
  | call nnn =>
    obtain ⟨c, w, rfl⟩ | ⟨-, rfl⟩ := execCall_next_cases h
    · simp [HasCheck]
    · simp [State.getV]
  | sknp x =>
    obtain ⟨c, w, rfl⟩ | ⟨c, rfl⟩ := execSknp_next_cases h
    · simp [HasCheck]
    · simp
  | drw x y n =>
    obtain ⟨c, w, rfl⟩ | ⟨u, hu, rfl⟩ := execDrw_next_cases h
    · simp [HasCheck]
    · obtain ⟨V, fb, e⟩ := hu.rest
      refine ⟨fun r hr => ?_, ?_⟩
      · by_contra hVF
        exact hr (hu.regs r hVF)
      · simp [e]
  | ldB x =>
    obtain ⟨c, w, rfl⟩ | ⟨-, rfl⟩ := execLdB_next_cases h
    · simp [HasCheck]
    · simp [State.getV]
  | ldVxI x =>
    obtain ⟨c, w, rfl⟩ | rfl := execLdVxI_next_cases h
    · simp [HasCheck]
    · obtain ⟨V, e⟩ := s.loadRegs_eq (x.val + 1)
      refine ⟨fun r hr => ?_, ?_⟩
      · rw [State.getV_advance, State.getV_loadRegs] at hr
        simp only [MayWriteReg]
        by_contra hx
        exact hr (if_neg (by omega))
      · simp [e]
  | rnd x kk =>
    obtain rfl := next_inj h
    refine ⟨fun r hr => ?_, by simp⟩
    by_contra hne
    exact hr ((State.getV_rndWith ..).trans (if_neg hne))
  | addReg | subReg | ldImm | addImm | ldReg | andReg | ldVxDt =>
    obtain rfl := next_inj h
    refine ⟨fun r hr => ?_, by simp⟩
    by_contra hne
    simp only [MayWriteReg, not_or] at hne
    exact hr (by simp [hne])
  | jp | seImm | sneImm | ldI | ldF | ldDtVx | ldStVx =>
    obtain rfl := next_inj h
    simp [State.getV]

/-- Settles O39: the registers R23 lets an instruction write, read at VF. -/
theorem vfIsWrittenAsFlagOnlyByThree : Obligations.VfIsWrittenAsFlagOnlyByThree := by
  intro i s t h hVF
  have hmay : MayWriteReg i VF := (onlyNamedInstructionsWriteEachPart i s t h).1 VF hVF
  cases i with
  | ldVxI x =>
    obtain rfl : x = VF := Fin.ext (Nat.le_antisymm (Nat.le_of_lt_succ x.isLt) hmay)
    simp
  | addReg | subReg | drw => simp
  | ldImm | addImm | ldReg | andReg | rnd | ldVxDt =>
    simp only [MayWriteReg] at hmay
    simp [hmay]
  | ret | jp | call | seImm | sneImm | ldI | sknp | ldDtVx | ldStVx | ldF | ldB => exact hmay.elim

/-! ## A cycle, by whether an instruction runs -/

/-- At most one instruction stands at pc. -/
theorem State.Runs.unique {s : State} {i j : Instr} (hi : s.Runs i) (hj : s.Runs j) : i = j := by
  obtain ⟨-, -, hi⟩ := hi
  obtain ⟨-, -, hj⟩ := hj
  exact Option.some.inj (hi.symm.trans hj)

/-- A cycle either runs no instruction, and then leaves the state alone or takes a fault on it, or runs the one at pc. -/
theorem step_next_cases {s t : State} (h : step s = .next t) :
    ((∀ i, ¬ s.Runs i) ∧ (t = s ∨ t.RaisedFrom s)) ∨
    ∃ i u, s.Runs i ∧ exec i s = .next u ∧ t = if u.halted then u else u.timerStep := by
  obtain ⟨hh, rfl⟩ | ⟨-, ⟨r, hf, rfl⟩ | ⟨-, hd, rfl⟩ | hx⟩ := step_cases h
  · refine .inl ⟨?_, .inl rfl⟩
    rintro i ⟨hrun, -, -⟩
    simp [hh] at hrun
  · refine .inl ⟨?_, .inr ⟨_, _, rfl⟩⟩
    rintro i ⟨-, hp, -⟩
    rw [State.fetch_of_le s hp] at hf
    cases hf
  · refine .inl ⟨?_, .inr ⟨_, _, rfl⟩⟩
    rintro i ⟨-, -, hi⟩
    simp [hd] at hi
  · exact .inr hx

/-- No Execute counts the sound event. -/
theorem exec_soundExpired {i : Instr} {s t : State} (h : exec i s = .next t) : t.soundExpired = s.soundExpired := by
  obtain ⟨-, -, -, -, -, -, -, -, -, -, -, -, hsound, -, -⟩ := onlyNamedInstructionsWriteEachPart i s t h
  exact hsound

/-- Settles O15: only the timer step counts the event, and it does so when Execute left ST at 1. -/
theorem soundExpiredOnlyFromOneToZero : Obligations.SoundExpiredOnlyFromOneToZero := by
  intro s t h
  obtain ⟨hno, rfl | ⟨c, w, rfl⟩⟩ | ⟨i, u, hi, hu, rfl⟩ := step_next_cases h
  · exact .inr ⟨rfl, fun i _ hi => absurd hi (hno i)⟩
  · exact .inr ⟨rfl, fun i _ hi => absurd hi (hno i)⟩
  have honly : ∀ j v, s.Runs j → exec j s = .next v → v = u := fun j v hj hv => by
    rw [hj.unique hi, hu] at hv
    exact next_inj hv
  by_cases hh : u.halted = true
  · refine .inr ⟨by simp [hh, exec_soundExpired hu], fun j v hj hv hrun => ?_⟩
    simp [honly j v hj hv, hh] at hrun
  · by_cases h1 : u.ST = 1
    · exact .inl ⟨by simp [hh, h1, exec_soundExpired hu], by simp [hh, h1, countDown],
        i, u, hi, hu, by simpa using hh, h1⟩
    · refine .inr ⟨by rw [if_neg hh, State.timerStep_soundExpired, if_neg h1, exec_soundExpired hu],
        fun j v hj hv _ => ?_⟩
      rwa [honly j v hj hv]

/-! ## The draw flag -/

/-- Execute changes the draw flag only in DRW, and there only to true. -/
theorem exec_draw_cases {i : Instr} {s t : State} (h : exec i s = .next t) :
    t.draw = s.draw ∨ (t.draw = true ∧ ∃ x y n, i = .drw x y n) := by
  by_cases hd : t.draw = s.draw
  · exact .inl hd
  obtain ⟨-, -, -, -, -, -, -, hdrw, -⟩ := onlyNamedInstructionsWriteEachPart i s t h
  obtain ⟨x, y, n, rfl⟩ := hdrw hd
  obtain ⟨c, w, rfl⟩ | ⟨u, -, rfl⟩ := execDrw_next_cases h
  · exact absurd rfl hd
  · exact .inr ⟨rfl, x, y, n, rfl⟩

/-- A DRW that completes leaves the draw flag true. -/
theorem exec_drw_draw {x y : Reg} {n : Nat} {s t : State} (h : exec (.drw x y n) s = .next t) (ht : t.halted = false) :
    t.draw = true := by
  obtain ⟨c, w, rfl⟩ | ⟨u, -, rfl⟩ := execDrw_next_cases h
  · cases ht
  · rfl

/-- The end of a cycle leaves the draw flag and the run status. -/
theorem draw_endCycle (u : State) : (if u.halted then u else u.timerStep).draw = u.draw := by
  split <;> rfl

theorem halted_endCycle (u : State) : (if u.halted then u else u.timerStep).halted = u.halted := by
  split <;> rfl

/-- Settles O40: a cycle's draw flag is the one Execute leaves, and of the host's acts one clears it. -/
theorem drawFlagSetByDrwClearedByHost : Obligations.DrawFlagSetByDrwClearedByHost := by
  refine ⟨fun s t h => ?_, fun s a => ?_, fun c => rfl⟩
  · obtain ⟨hno, rfl | ⟨c, w, rfl⟩⟩ | ⟨i, u, hi, hu, rfl⟩ := step_next_cases h
    · exact ⟨id, absurd rfl, fun x y n hr => absurd hr (hno _)⟩
    · exact ⟨id, absurd rfl, fun x y n hr => absurd hr (hno _)⟩
    rw [draw_endCycle, halted_endCycle]
    refine ⟨fun hs => ?_, fun hne => ?_, fun x y n hr ht => ?_⟩
    · obtain hd | ⟨hd, -⟩ := exec_draw_cases hu
      · exact hd.trans hs
      · exact hd
    · obtain hd | ⟨-, x, y, n, rfl⟩ := exec_draw_cases hu
      · exact absurd hd hne
      · exact ⟨x, y, n, hi⟩
    · rw [hi.unique hr] at hu
      exact exec_drw_draw hu ht
  · cases a <;> rfl

/-! ## The invariant -/

theorem Inv.construct (c : Config) : Inv (State.construct c) where
  memWf := Memory.wf_nil
  indexInMemory := by simp [State.construct]
  pcRange := by simp [State.construct]
  spRange := by simp [State.construct]
  callSites := by simp [State.construct]
  haltedIffFault := by simp [State.construct]

/-- A store of bytes inside memory keeps the invariant. -/
theorem Inv.writeList {s : State} (h : Inv s) (a : Nat) (vs : List Byte) (ha : a + vs.length ≤ Config.lastAddr + 1) :
    Inv { s with mem := s.mem.writeList a vs } :=
  { h with memWf := Memory.wf_writeList h.memWf vs a ha }

theorem Inv.withI {s : State} (h : Inv s) {a : Word} (ha : a.toNat ≤ 0xFFF) : Inv { s with I := a } :=
  { h with indexInMemory := ha }

theorem Inv.setPc {s : State} (h : Inv s) {a : Word} (ha : a.toNat ≤ 0x1002) : Inv (s.setPc a) :=
  { h with pcRange := ha }

theorem Inv.skipIf {s : State} (h : Inv s) (hp : s.pc.toNat ≤ 0xFFE) (c : Bool) : Inv (s.skipIf c) := by
  refine h.setPc ?_
  split <;> bv_omega

theorem Inv.advance {s : State} (h : Inv s) (hp : s.pc.toNat ≤ 0xFFE) : Inv s.advance := h.skipIf hp false

/-! The other parts of the state are free: after an update of them alone, `{ h with }` is the invariant again. -/

theorem Inv.timerStep {s : State} (h : Inv s) : Inv s.timerStep := { h with }

theorem Inv.raise {s : State} (h : Inv s) (c : FaultCause) (w : Word) : Inv (s.raise c w) :=
  { h with haltedIffFault := by simp }

theorem Inv.raisedFrom {s t : State} (h : Inv s) (ht : t.RaisedFrom s) : Inv t := by
  obtain ⟨c, w, rfl⟩ := ht
  exact h.raise c w

/-- Pushing a call site keeps the ranges of sp and of the slots. -/
theorem Inv.push {s : State} (h : Inv s) (hs : s.sp.toNat < 16) (hp : s.pc.toNat ≤ 0xFFE) :
    Inv { s with stack := s.stack.set s.sp.toNat s.pc, sp := s.sp + 1 } :=
  { h with
    spRange := by simp only; bv_omega
    callSites := fun j => by
      simp only [Vector.getElem_set]
      split
      · exact hp
      · exact h.callSites j }

/-- Taking an entry off a stack that is not empty keeps the range of sp. -/
theorem Inv.pop {s : State} (h : Inv s) (h0 : s.sp ≠ 0) : Inv { s with sp := s.sp - 1 } :=
  { h with spRange := by have := h.spRange; simp only; bv_omega }

theorem addrOperand_toNat (nnn : BitVec 12) : (addrOperand nnn).toNat = nnn.toNat := by
  simp [addrOperand]; omega

theorem glyphAddr_le (v : Byte) : (glyphAddr v).toNat ≤ 0xFFF := by
  have hv : v.toNat < 256 := v.isLt
  rw [glyphAddr, BitVec.toNat_ofNat]
  exact (Nat.mod_le ..).trans (by omega)

/-- Execute keeps the invariant, where pc still has a word of memory. -/
theorem Inv.exec {i : Instr} {s t : State} (hs : Inv s) (hp : s.pc.toNat ≤ 0xFFE) (h : exec i s = .next t) : Inv t := by
  have haddr : ∀ nnn, (addrOperand nnn).toNat ≤ 0xFFF := fun nnn => by rw [addrOperand_toNat]; omega
  cases i with
  | ret =>
    obtain hr | ⟨h0, hslot, rfl⟩ := execRet_next_cases h
    · exact hs.raisedFrom hr
    · have := hs.callSites ⟨_, hslot⟩
      exact (hs.pop h0).setPc (by bv_omega)
  | call nnn =>
    obtain hr | ⟨hlt, rfl⟩ := execCall_next_cases h
    · exact hs.raisedFrom hr
    · exact (hs.push hlt hp).setPc ((haddr nnn).trans (by decide))
  | jp nnn =>
    obtain rfl := next_inj h
    exact hs.setPc ((haddr nnn).trans (by decide))
  | seImm | sneImm =>
    obtain rfl := next_inj h
    exact hs.skipIf hp _
  | sknp x =>
    obtain hr | ⟨c, rfl⟩ := execSknp_next_cases h
    · exact hs.raisedFrom hr
    · exact hs.skipIf hp c
  | ldI nnn =>
    obtain rfl := next_inj h
    exact (hs.withI (haddr nnn)).advance hp
  | ldF x =>
    obtain rfl := next_inj h
    exact (hs.withI (glyphAddr_le _)).advance hp
  | ldB x =>
    obtain hr | ⟨hI, rfl⟩ := execLdB_next_cases h
    · exact hs.raisedFrom hr
    · exact (hs.writeList s.I.toNat (decimalDigits (s.getV x)) (Nat.succ_le_succ hI)).advance hp
  | ldVxI x =>
    obtain hr | rfl := execLdVxI_next_cases h
    · exact hs.raisedFrom hr
    · obtain ⟨V, e⟩ := s.loadRegs_eq (x.val + 1)
      rw [e]
      exact { hs.advance hp with }
  | drw x y n =>
    obtain hr | ⟨u, hu, rfl⟩ := execDrw_next_cases h
    · exact hs.raisedFrom hr
    · obtain ⟨V, fb, rfl⟩ := hu.rest
      exact { hs.advance hp with }
  | ldImm | addImm | ldReg | andReg | addReg | subReg | rnd | ldVxDt | ldDtVx | ldStVx =>
    obtain rfl := next_inj h
    exact { hs.advance hp with }

theorem Inv.step {s t : State} (hs : Inv s) (h : step s = .next t) : Inv t := by
  obtain ⟨-, rfl | hr⟩ | ⟨i, u, ⟨-, hp, -⟩, hu, rfl⟩ := step_next_cases h
  · exact hs
  · exact hs.raisedFrom hr
  have hInv : Inv u := hs.exec (Nat.le_of_succ_le_succ hp) hu
  split
  · exact hInv
  · exact hInv.timerStep

/-- Settles O43: no fetched instruction, no fault and no timer step breaks the invariant. -/
theorem stepKeepsInv : Obligations.StepKeepsInv := fun _ _ => Inv.step

/-- Settles O42; reset is construction with the default parameters. -/
theorem invHoldsAfterConstruction : Obligations.InvHoldsAfterConstruction := ⟨Inv.construct, Inv.construct _⟩

/-- The state after a boot meets the invariant: the font and the program lie inside memory. -/
theorem Inv.boot {c : Config} {bytes : List Byte} {s : State} (h : boot c bytes = .ok s) : Inv s := by
  simp only [Machine.boot, State.loadProgram] at h
  split at h
  · cases h
  · rename_i hlen
    cases h
    have hfont : Inv (State.construct c).loadFontset := (Inv.construct c).writeList 0 _ (by simp [State.construct])
    exact hfont.writeList _ bytes (by simp only [Config.maxRom] at hlen; simp only [Config.progBase, Config.lastAddr]; omega)

theorem Inv.hostAct {s : State} (h : Inv s) (a : HostAct) : Inv (s.hostAct a) := by
  obtain ⟨key, draw, e⟩ := s.hostAct_eq a
  rw [e]
  exact { h with }

/-- The invariant holds of every reachable state. -/
theorem Reachable.inv {s : State} (h : Reachable s) : Inv s := by
  induction h with
  | boot c bytes s hb => exact Inv.boot hb
  | cycle s t _ hst ih => exact ih.step hst
  | host s a _ ih => exact ih.hostAct a

/-- Settles O44: the ranges are clauses of the invariant. -/
theorem reachableStatesKeepTheRanges : Obligations.ReachableStatesKeepTheRanges :=
  fun _ h => ⟨h.inv.indexInMemory, h.inv.callSites, h.inv⟩

/-! ## What an instruction does not read -/

/-- The answer with its next state changed. -/
def mapNext (f : State → State) : Answer → Answer
  | .next t => .next (f t)
  | .fault r => .fault r
  | .refused r => .refused r

/-- The state with the key latch and the sound timer changed. -/
def State.mapKeySt (k : Vector Bool 16 → Vector Bool 16) (g : Byte → Byte) (s : State) : State :=
  { s with key := k s.key, ST := g s.ST }

section MapKeySt

variable (k : Vector Bool 16 → Vector Bool 16) (g : Byte → Byte)

theorem State.popAndGo_mapKeySt (s : State) :
    (s.mapKeySt k g).popAndGo = mapNext (State.mapKeySt k g) s.popAndGo := by
  simp only [State.popAndGo, apply_dite (mapNext _)]
  rfl

theorem State.pushPcAndGo_mapKeySt (s : State) (target : Word) :
    (s.mapKeySt k g).pushPcAndGo target = mapNext (State.mapKeySt k g) (s.pushPcAndGo target) := by
  simp only [State.pushPcAndGo, apply_dite (mapNext _)]
  rfl

theorem State.drawCell_mapKeySt (s : State) (c : Fin 2048) :
    (s.mapKeySt k g).drawCell c = (s.drawCell c).mapKeySt k g := by
  have hc : (s.mapKeySt k g).getFb c = s.getFb c := rfl
  simp only [State.drawCell, hc]
  split <;> rfl

theorem State.drawBit_mapKeySt (vx vy : Byte) (x y : Reg) (row : Nat) (bits : Byte) (s : State) (col : Nat) :
    (s.mapKeySt k g).drawBit vx vy x y row bits col = (s.drawBit vx vy x y row bits col).mapKeySt k g := by
  unfold State.drawBit
  split
  · exact s.drawCell_mapKeySt k g _
  · rfl

theorem State.drawRow_mapKeySt (vx vy : Byte) (x y : Reg) (s : State) (row : Nat) :
    (s.mapKeySt k g).drawRow vx vy x y row = (s.drawRow vx vy x y row).mapKeySt k g :=
  List.foldl_hom (State.mapKeySt k g) fun t col => t.drawBit_mapKeySt k g vx vy x y row _ col

theorem State.drawSprite_mapKeySt (s : State) (x y : Reg) (n : Nat) :
    (s.mapKeySt k g).drawSprite x y n = (s.drawSprite x y n).mapKeySt k g :=
  List.foldl_hom (State.mapKeySt k g) (init := s.setV VF 0) fun t row => t.drawRow_mapKeySt k g (s.getV x) (s.getV y) x y row

theorem State.loadRegs_mapKeySt (s : State) (count : Nat) :
    (s.mapKeySt k g).loadRegs count = (s.loadRegs count).mapKeySt k g := by
  induction count with
  | zero => rfl
  | succ j ih =>
    simp only [State.loadRegs, ih, State.loadReg]
    split <;> rfl

/-- No instruction but SKNP reads the key latch, and none reads the sound timer; so Execute passes a change of the two on,
unless the instruction is LD ST, which replaces the timer. -/
theorem exec_mapKeySt {i : Instr} (s : State) (hkey : ∀ x, i ≠ .sknp x) (hST : ∀ x, i ≠ .ldStVx x) :
    exec i (s.mapKeySt k g) = mapNext (State.mapKeySt k g) (exec i s) := by
  cases i with
  | sknp x => exact absurd rfl (hkey x)
  | ldStVx x => exact absurd rfl (hST x)
  | ret =>
    simp only [exec, execRet, apply_ite (mapNext _), ← State.popAndGo_mapKeySt]
    rfl
  | call nnn =>
    simp only [exec, execCall, apply_ite (mapNext _), ← State.pushPcAndGo_mapKeySt]
    rfl
  | ldB x =>
    simp only [exec, execLdB, apply_ite (mapNext _)]
    rfl
  | ldVxI x =>
    simp only [exec, execLdVxI, apply_ite (mapNext _), State.loadRegs_mapKeySt]
    rfl
  | drw x y n =>
    simp only [exec, execDrw, apply_ite (mapNext _), State.drawSprite_mapKeySt]
    rfl
  | jp | seImm | sneImm | ldImm | addImm | ldReg | andReg | addReg | subReg | rnd | ldI | ldF | ldVxDt | ldDtVx => rfl

/-- LD ST passes a change of the key latch on. -/
theorem exec_ldStVx_mapKeySt (x : Reg) (s : State) :
    exec (.ldStVx x) (s.mapKeySt k id) = mapNext (State.mapKeySt k id) (exec (.ldStVx x) s) := rfl

/-- SKNP passes a change of the sound timer on. -/
theorem exec_sknp_mapKeySt (x : Reg) (s : State) :
    exec (.sknp x) (s.mapKeySt id g) = mapNext (State.mapKeySt id g) (exec (.sknp x) s) := by
  simp only [exec, execSknp, apply_dite (mapNext _)]
  rfl

end MapKeySt

/-- Settles O47: Execute passes the replacement of the key latch on. -/
theorem keyLatchIsReadOnlyBySknp : Obligations.KeyLatchIsReadOnlyBySknp := by
  intro i s t key hi h
  change exec i (s.mapKeySt (fun _ => key) id) = mapNext (State.mapKeySt (fun _ => key) id) (.next t)
  rw [← h]
  by_cases hST : ∃ x, i = .ldStVx x
  · obtain ⟨x, rfl⟩ := hST
    exact exec_ldStVx_mapKeySt _ x s
  · exact exec_mapKeySt _ _ s hi (not_exists.mp hST)

/-- A replaced sound timer is the only difference from the state it was replaced in. -/
theorem sameBut_withST (t : State) (v : Byte) : SameBut [.ST] t { t with ST := v } := fun p hp => by
  cases p with
  | ST => simp at hp
  | mem | V | fb | key => exact fun _ => rfl
  | I | pc | stack | sp | DT | draw | halted | fault | soundExpired | rndDraws | config => rfl

/-- Settles O48: LD ST replaces the timer whatever it was, and any other Execute passes the replacement on. -/
theorem soundTimerIsNeverRead : Obligations.SoundTimerIsNeverRead := by
  intro i s t v h
  by_cases hST : ∃ x, i = .ldStVx x
  · obtain ⟨x, rfl⟩ := hST
    exact ⟨t, h, SameBut.refl _ t, fun _ => rfl, fun hne => absurd rfl (hne x)⟩
  have hpass : exec i (s.mapKeySt id fun _ => v) = mapNext (State.mapKeySt id fun _ => v) (exec i s) := by
    by_cases hkey : ∃ x, i = .sknp x
    · obtain ⟨x, rfl⟩ := hkey
      exact exec_sknp_mapKeySt _ x s
    · exact exec_mapKeySt _ _ s (not_exists.mp hkey) (not_exists.mp hST)
  rw [h] at hpass
  exact ⟨_, hpass, sameBut_withST t v, fun he => absurd he hST, fun _ => rfl⟩

/-! ## Canonical memories -/

/-- A canonical memory lists no cell twice. -/
theorem Memory.nodup_of_wf {m : Memory} (hm : Memory.wf m) : m.Nodup :=
  hm.1.imp fun hlt e => hlt.ne (congrArg Prod.fst e)

/-- The cells of a canonical memory are the addresses that do not read as unlisted, each with what it reads as. -/
theorem Memory.mem_iff_read {m : Memory} (hm : Memory.wf m) (a : Nat) (v : Byte) :
    (a, v) ∈ m ↔ Memory.read m a = v ∧ v ≠ Memory.unlisted := by
  induction m with
  | nil => exact ⟨fun h => absurd h List.not_mem_nil, fun ⟨hr, hv⟩ => absurd hr.symm hv⟩
  | cons d m ih =>
    obtain ⟨b, u⟩ := d
    have hlow : ∀ e ∈ m, b < e.1 := (List.pairwise_cons.mp hm.1).1
    have hu : u ≠ Memory.unlisted := (hm.2 (b, u) (List.mem_cons_self ..)).2
    rw [List.mem_cons, ih (Memory.wf_tail hm)]
    by_cases hab : a = b
    · subst hab
      have hnone : Memory.read m a = Memory.unlisted := Memory.read_of_lt hlow
      simp only [Memory.read, if_true, hnone, Prod.mk.injEq, true_and]
      constructor
      · rintro (rfl | ⟨rfl, hv⟩)
        · exact ⟨rfl, hu⟩
        · exact absurd rfl hv
      · rintro ⟨rfl, -⟩
        exact .inl rfl
    · simp [Memory.read, hab]

/-- A memory that reads like a canonical one lists its cells, if it is canonical too. -/
theorem Memory.mem_of_reads_alike {m m' : Memory} (hm : Memory.wf m) (hm' : Memory.wf m')
    (hread : ∀ a, a ≤ 0xFFF → Memory.read m a = Memory.read m' a) {c : Host.Cell} (hc : c ∈ m) : c ∈ m' := by
  obtain ⟨hr, hv⟩ := (Memory.mem_iff_read hm c.1 c.2).mp hc
  exact (Memory.mem_iff_read hm' c.1 c.2).mpr ⟨(hread c.1 (hm.2 c hc).1).symm.trans hr, hv⟩

/-- Settles O54: the two lists have the same cells, and both rise strictly by address. -/
theorem canonicalMemoriesThatReadAlikeAreEqual : Obligations.CanonicalMemoriesThatReadAlikeAreEqual := by
  intro m m' hm hm' hread
  have hperm : m.Perm m' := (List.perm_ext_iff_of_nodup (Memory.nodup_of_wf hm) (Memory.nodup_of_wf hm')).mpr fun c =>
    ⟨Memory.mem_of_reads_alike hm hm' hread, Memory.mem_of_reads_alike hm' hm fun a ha => (hread a ha).symm⟩
  exact hperm.eq_of_pairwise (fun _ _ _ _ hlt hgt => absurd hlt (lt_asymm hgt)) hm.1 hm'.1

/-! ## The absent stack slot, and the state after construction -/

/-- Settles O21: with sp above 16 neither check of the stack answers, and the slot named does not exist. -/
theorem absentStackSlotStops : Obligations.AbsentStackSlotStops := by
  intro nnn s hs
  constructor
  · calc execCall nnn s = s.pushPcAndGo (addrOperand nnn) := execCall_of_ne nnn s (by omega)
      _ = .fault (.noStackSlot s.sp.toNat) := s.pushPcAndGo_of_le _ (by omega)
  · calc execRet s = s.popAndGo := execRet_of_pos s (fun e => by simp [e] at hs)
      _ = .fault (.noStackSlot (s.sp.toNat - 1)) := s.popAndGo_of_le (by omega)

/-- Settles O41, from what memory, the registers, the cells and the keys read as after construction. -/
theorem constructionGivesTheListedValues : Obligations.ConstructionGivesTheListedValues := by
  refine ⟨fun c => ⟨Memory.read_nil, State.getV_construct c, rfl, rfl, fun j => ?_, rfl, rfl, rfl,
    State.getFb_construct c, rfl, State.getKey_construct c, rfl, rfl⟩, rfl, rfl⟩
  exact Vector.getElem_replicate ..

end Sys2Proof.Machine

/-! # Memory and the fetch (20_memory.md)

What a fetched word reads as, and that the next fetch sees bytes just stored. -/

namespace Sys2Proof.Machine

/-! ## The word of two bytes -/

/-- The byte at the lower address is the high one (20_memory.md R53). -/
theorem wordOfBytes_toNat (hi lo : Byte) : (wordOfBytes hi lo).toNat = hi.toNat * 256 + lo.toNat := by
  rw [wordOfBytes, BitVec.toNat_append, ← Nat.shiftLeft_add_eq_or_of_lt lo.isLt, Nat.shiftLeft_eq]

/-- The word at an address where bytes were stored is that of the first two. -/
theorem State.wordAt_of_writeList {t : State} {m : Memory} (hm : m.wf) {a : Nat} {hi lo : Byte} {rest : List Byte}
    (ha : a + (hi :: lo :: rest).length ≤ Config.lastAddr + 1) (ht : t.mem = m.writeList a (hi :: lo :: rest)) :
    t.wordAt a = wordOfBytes hi lo := by
  have hhi : t.mem.read a = hi := by
    rw [ht]
    exact Memory.read_writeList hm (hi :: lo :: rest) a 0 (by simp) ha
  have hlo : t.mem.read (a + 1) = lo := by
    rw [ht]
    exact Memory.read_writeList hm (hi :: lo :: rest) a 1 (by simp) ha
  rw [State.wordAt, hhi, hlo]

/-- Bytes stored at pc are fetched. -/
theorem State.fetch_of_writeList {t : State} {m : Memory} (hm : m.wf) {hi lo : Byte} {rest : List Byte}
    (ha : t.pc.toNat + (hi :: lo :: rest).length ≤ Config.lastAddr + 1)
    (ht : t.mem = m.writeList t.pc.toNat (hi :: lo :: rest)) : t.fetch = .ok (wordOfBytes hi lo) := by
  have hpc : t.pc.toNat + 1 ≤ Config.lastAddr := by
    simp only [List.length_cons] at ha
    omega
  rw [State.fetch_of_le t hpc, State.wordAt_of_writeList hm ha ht]

/-! ## The cycle of an instruction that runs (40_cycle.md R81) -/

/-- The cycle of an instruction at pc is its Execute, brought to its end. -/
theorem State.Runs.step {s : State} {i : Instr} (h : s.Runs i) : step s = endCycle (exec i s) := by
  obtain ⟨hrun, hpc, hdec⟩ := h
  simp [Machine.step, hrun, State.fetch_of_le s hpc, hdec]

/-- An Execute that leaves the machine running is followed by the timer step. -/
theorem State.Runs.step_of_running {s t : State} {i : Instr} (h : s.Runs i) (hx : exec i s = .next t)
    (ht : t.halted = false) : Machine.step s = .next t.timerStep := by
  rw [h.step, hx]
  simp [endCycle, ht]

/-- A cycle of LD B inside memory stores the digits and goes to the next instruction (43_index_memory.md R108). -/
theorem State.Runs.step_ldB {s : State} {x : Reg} (h : s.Runs (.ldB x)) (hfits : s.I.toNat + 2 ≤ 0xFFF) :
    Machine.step s = .next (State.advance
      { s with mem := s.mem.writeList s.I.toNat (decimalDigits (s.getV x)) }).timerStep := by
  have ⟨hrun, _, _⟩ := h
  exact h.step_of_running (execLdB_of_fits x s hfits) hrun

/-- Settles O49: LD B stores its digits from I on, and I is where pc goes. -/
theorem storedDigitsAreFetchedNext : Obligations.StoredDigitsAreFetchedNext := by
  intro x s hm hr hI hfits
  have hpc : (s.pc + 2).toNat = s.I.toNat := by bv_omega
  have hstored : s.mem.writeList s.I.toNat (decimalDigits (s.getV x)) =
      s.mem.writeList (s.pc + 2).toNat (decimalDigits (s.getV x)) := by rw [hpc]
  refine ⟨_, _, hr.step_ldB hfits, State.fetch_of_writeList hm ?_ hstored, ?_⟩
  · rw [State.timerStep_pc, State.advance_pc, hpc]
    exact Nat.succ_le_succ hfits
  · have hv : (s.getV x).toNat < 256 := (s.getV x).isLt
    rw [wordOfBytes_toNat, BitVec.toNat_ofNat, BitVec.toNat_ofNat]
    omega

/-! ## The fetch -/

/-- A running machine takes the fault of its fetch, and nothing else changes. -/
theorem step_faulted_of_fetch_error {s : State} {c : FaultCause} {info : Word} (hf : s.fetch = .error ⟨c, info⟩)
    (hrun : s.halted = false) : ∃ t, step s = .next t ∧ Faulted s t c info :=
  ⟨_, step_of_fetch_error s hrun hf, faulted_raise s c info⟩

/-- Settles O8, by where pc stands to the last address of memory. -/
theorem fetchFormsBigEndianWordOrFaults : Obligations.FetchFormsBigEndianWordOrFaults := by
  intro s
  refine ⟨fun hpc => ?_, fun hpc => ?_, fun hpc => ?_⟩
  · exact ⟨State.fetch_of_lt s hpc, step_faulted_of_fetch_error (State.fetch_of_lt s hpc)⟩
  · exact ⟨State.fetch_of_eq s hpc, step_faulted_of_fetch_error (State.fetch_of_eq s hpc)⟩
  · exact ⟨_, State.fetch_of_le s hpc, wordOfBytes_toNat ..⟩

/-! ## The word the host places -/

/-- A row of 16 bits is its own table word. -/
theorem tableWord_sixteen (w : Nat) : tableWord 16 w = BitVec.ofNat 16 w :=
  BitVec.eq_of_toNat_eq (by simp [tableWord])

/-- The host's view of the decoder is the decoder, at the table word. -/
theorem decodeTableWord_eq (nbits w : Nat) : decodeTableWord nbits w = decodeWord (tableWord nbits w) := by
  simp only [decodeTableWord, decode, wordOfBytes_high_low]
  cases decodeWord (tableWord nbits w) <;> rfl

/-- Where the host places a word, both its bytes lie in memory. -/
theorem State.withFetchWord_pc_lt (s : State) (nbits w : Nat) :
    (s.withFetchWord nbits w).pc.toNat < Config.lastAddr := by
  simp only [State.withFetchWord]
  split
  · assumption
  · decide

/-- The host stores the bytes of the table word where the next cycle fetches. -/
theorem State.withFetchWord_mem (s : State) (nbits w : Nat) :
    (s.withFetchWord nbits w).mem = s.mem.writeList (s.withFetchWord nbits w).pc.toNat
      [highByte (tableWord nbits w), lowByte (tableWord nbits w)] := rfl

/-- Settles O55: the two bytes stored at pc lie in memory, so they read back as the word. -/
theorem placedWordIsFetchedNext : Obligations.PlacedWordIsFetchedNext := by
  intro s w hm
  have hpc : (s.withFetchWord 16 w).pc.toNat + 2 ≤ Config.lastAddr + 1 := Nat.succ_le_succ (s.withFetchWord_pc_lt 16 w)
  refine ⟨rfl, ?_, ?_, ?_⟩
  · rw [State.withFetchWord_mem]
    exact Memory.wf_writeList hm _ _ hpc
  · rw [State.fetch_of_writeList hm hpc (s.withFetchWord_mem 16 w), wordOfBytes_high_low, tableWord_sixteen]
  · rw [decodeTableWord_eq, tableWord_sixteen]

end Sys2Proof.Machine

/-! # Encoding (30_encoding.md)

The decoder and the encoder are inverse to each other, every word selects at most one row, and the opcode map by nibbles. -/

namespace Sys2Proof

/-! ## The row of a word (R71, R80) -/

@[simp] theorem Row.selects_iff (r : Row) (w : Word) : r.selects w = true ↔ w &&& r.mask = r.pattern := by
  simp [Row.selects]

/-- A word decodes to the instruction of a row that it selects. -/
theorem exists_row_of_decodeWord {w : Word} {i : Instr} (h : decodeWord w = some i) :
    ∃ r ∈ opcodeTable, r.selects w = true ∧ assemble r.op w = i := by
  obtain ⟨r, hfind, hi⟩ := Option.map_eq_some_iff.mp h
  exact ⟨r, List.mem_of_find?_eq_some hfind, by simpa using List.find?_some hfind, hi⟩

theorem decodeWord_eq_none_iff {w : Word} : decodeWord w = none ↔ ∀ r ∈ opcodeTable, ¬ Row.selects r w = true := by
  simp only [decodeWord, Option.map_eq_none_iff, List.find?_eq_none]

/-- No word selects two rows (R74). -/
theorem row_unique {q r : Row} {w : Word} (hq : q ∈ opcodeTable) (hr : r ∈ opcodeTable) (hqw : q.selects w = true)
    (hrw : r.selects w = true) : q = r := by
  obtain heq | hdisj := opcodeTable_disjoint q hq r hr
  · exact heq
  · simp [Row.not_selects_of_disjoint hdisj hqw] at hrw

/-- Settles O4: a word that decodes selects the row it decodes by, and no other. -/
theorem everyWordIsOneRowOrIllegal : Obligations.EveryWordIsOneRowOrIllegal := by
  intro w
  simp only [← Row.selects_iff, ne_eq]
  cases h : decodeWord w with
  | none => exact .inr ⟨decodeWord_eq_none_iff.mp h, rfl⟩
  | some i =>
    obtain ⟨r, hr, hrw, rfl⟩ := exists_row_of_decodeWord h
    exact .inl ⟨r, hr, hrw, rfl, fun q hq hqw => row_unique hq hr hqw hrw⟩

/-! ## Encoding, then decoding -/

/-- The decoder reads every well-formed instruction back from its word. -/
theorem decodeWord_encodeWord : ∀ {i : Instr}, i.wellFormed = true → decodeWord (encodeWord i) = some i
  | .ret => Laws.DecodeEncode.ret
  | .jp nnn => Laws.DecodeEncode.jp nnn
  | .call nnn => Laws.DecodeEncode.call nnn
  | .seImm x kk => Laws.DecodeEncode.seImm x kk
  | .sneImm x kk => Laws.DecodeEncode.sneImm x kk
  | .ldImm x kk => Laws.DecodeEncode.ldImm x kk
  | .addImm x kk => Laws.DecodeEncode.addImm x kk
  | .ldReg x y => Laws.DecodeEncode.ldReg x y
  | .andReg x y => Laws.DecodeEncode.andReg x y
  | .addReg x y => Laws.DecodeEncode.addReg x y
  | .subReg x y => Laws.DecodeEncode.subReg x y
  | .ldI nnn => Laws.DecodeEncode.ldI nnn
  | .rnd x kk => Laws.DecodeEncode.rnd x kk
  | .drw x y n => Laws.DecodeEncode.drw x y n
  | .sknp x => Laws.DecodeEncode.sknp x
  | .ldVxDt x => Laws.DecodeEncode.ldVxDt x
  | .ldDtVx x => Laws.DecodeEncode.ldDtVx x
  | .ldStVx x => Laws.DecodeEncode.ldStVx x
  | .ldF x => Laws.DecodeEncode.ldF x
  | .ldB x => Laws.DecodeEncode.ldB x
  | .ldVxI x => Laws.DecodeEncode.ldVxI x

/-- Two bytes are consumed, and the word they make is decoded. -/
theorem decode_of_decodeWord {w : Word} {i : Instr} (h : decodeWord w = some i) (rest : List Byte) :
    decode (highByte w :: lowByte w :: rest) = .ok (i, rest) := by
  simp [decode, wordOfBytes_high_low, h]

/-- Settles O2: the two bytes of the encoding make the instruction's word again, which decodes to it. -/
theorem decodeEncodeAgree : Obligations.DecodeEncodeAgree :=
  fun _ rest hwf => decode_of_decodeWord (decodeWord_encodeWord hwf) rest

/-! ## Concatenations -/

/-- A vector is the concatenation of its high part and its low part. -/
theorem append_extractLsb' {m n : Nat} (v : BitVec (m + n)) : v.extractLsb' n m ++ v.extractLsb' 0 n = v :=
  (BitVec.extractLsb'_append_extractLsb'_eq_extractLsb' (Nat.zero_add n).symm).trans BitVec.extractLsb'_eq_self

/-- A concatenation determines its parts. -/
theorem append_inj_iff {m n : Nat} {a b : BitVec m} {c d : BitVec n} : a ++ c = b ++ d ↔ a = b ∧ c = d := by
  constructor
  · intro h
    have hhi := congrArg (BitVec.extractLsb' n m) h
    have hlo := congrArg (BitVec.extractLsb' 0 n) h
    rw [BitVec.extractLsb'_append_eq_left, BitVec.extractLsb'_append_eq_left] at hhi
    rw [BitVec.extractLsb'_append_eq_right, BitVec.extractLsb'_append_eq_right] at hlo
    exact ⟨hhi, hlo⟩
  · rintro ⟨rfl, rfl⟩
    rfl

theorem byte_nibbles (kk : Byte) : kk.extractLsb' 4 4 ++ kk.extractLsb' 0 4 = kk :=
  append_extractLsb' (m := 4) (n := 4) kk

theorem addr_nibbles (nnn : BitVec 12) : nnn.extractLsb' 8 4 ++ nnn.extractLsb' 4 4 ++ nnn.extractLsb' 0 4 = nnn := by
  have hhi : nnn.extractLsb' 8 4 ++ nnn.extractLsb' 4 4 = nnn.extractLsb' 4 8 :=
    BitVec.extractLsb'_append_extractLsb'_eq_extractLsb' rfl
  rw [hhi]
  exact append_extractLsb' (m := 8) (n := 4) nnn

theorem byte_eq_nibbles_iff {kk : Byte} {a b : Nibble} :
    kk = a ++ b ↔ kk.extractLsb' 4 4 = a ∧ kk.extractLsb' 0 4 = b := by
  rw [← append_inj_iff, byte_nibbles]

theorem nibbles_eq_append_addr (n1 n2 n3 n4 : Nibble) : n1 ++ n2 ++ n3 ++ n4 = n1 ++ (n2 ++ n3 ++ n4) := by
  rw [BitVec.append_assoc (x₁ := n1), BitVec.cast_eq, BitVec.append_assoc (x₁ := n1), BitVec.cast_eq]

theorem nibbles_eq_append_byte (n1 n2 n3 n4 : Nibble) : n1 ++ n2 ++ n3 ++ n4 = n1 ++ n2 ++ (n3 ++ n4) :=
  BitVec.append_assoc

/-! ## A word is made of its fields (R68, R69) -/

/-- The family nibble n1 = w[15:12]. -/
def familyNibble (w : Word) : Nibble := w.extractLsb' 12 4

theorem regBits_fieldX (w : Word) : regBits (fieldX w) = w.extractLsb' 8 4 := by
  rw [regBits, fieldX, BitVec.ofNat_toNat, BitVec.setWidth_eq]

theorem regBits_fieldY (w : Word) : regBits (fieldY w) = w.extractLsb' 4 4 := by
  rw [regBits, fieldY, BitVec.ofNat_toNat, BitVec.setWidth_eq]

theorem ofNat_fieldN (w : Word) : BitVec.ofNat 4 (fieldN w) = w.extractLsb' 0 4 := by
  rw [fieldN, BitVec.ofNat_toNat, BitVec.setWidth_eq]

theorem addrWord_fields (w : Word) : addrWord (familyNibble w) (fieldNnn w) = w :=
  append_extractLsb' (m := 4) (n := 12) w

theorem regByteWord_fields (w : Word) : regByteWord (familyNibble w) (fieldX w) (fieldKk w) = w := by
  have hx : w.extractLsb' 12 4 ++ w.extractLsb' 8 4 = w.extractLsb' 8 8 :=
    BitVec.extractLsb'_append_extractLsb'_eq_extractLsb' rfl
  rw [regByteWord, regBits_fieldX, familyNibble, hx]
  exact append_extractLsb' (m := 8) (n := 8) w

theorem regRegWord_fields (w : Word) :
    regRegWord (familyNibble w) (fieldX w) (fieldY w) (w.extractLsb' 0 4) = w := by
  have hx : w.extractLsb' 12 4 ++ w.extractLsb' 8 4 = w.extractLsb' 8 8 :=
    BitVec.extractLsb'_append_extractLsb'_eq_extractLsb' rfl
  have hy : w.extractLsb' 8 8 ++ w.extractLsb' 4 4 = w.extractLsb' 4 12 :=
    BitVec.extractLsb'_append_extractLsb'_eq_extractLsb' rfl
  rw [regRegWord, regBits_fieldX, regBits_fieldY, familyNibble, hx, hy]
  exact append_extractLsb' (m := 12) (n := 4) w

/-! ## Decoding, then encoding (R77) -/

/-- A field that a mask covers is the pattern's. -/
theorem extractLsb'_of_and {w m p : Word} (h : w &&& m = p) {start len : Nat}
    (hm : m.extractLsb' start len = BitVec.allOnes len) : p.extractLsb' start len = w.extractLsb' start len := by
  rw [← h, BitVec.extractLsb'_and, hm, BitVec.and_allOnes]

theorem addrWord_of_and {w p : Word} (h : w &&& 0xF000 = p) : addrWord (familyNibble p) (fieldNnn w) = w := by
  rw [familyNibble, extractLsb'_of_and h (by decide)]
  exact addrWord_fields w

theorem regByteWord_of_and {w p : Word} (h : w &&& 0xF000 = p) :
    regByteWord (familyNibble p) (fieldX w) (fieldKk w) = w := by
  rw [familyNibble, extractLsb'_of_and h (by decide)]
  exact regByteWord_fields w

theorem regByteWord_of_and_fn {w p : Word} (h : w &&& 0xF0FF = p) :
    regByteWord (familyNibble p) (fieldX w) (fieldKk p) = w := by
  rw [familyNibble, fieldKk, extractLsb'_of_and h (by decide), extractLsb'_of_and h (by decide)]
  exact regByteWord_fields w

theorem regRegWord_of_and {w p : Word} (h : w &&& 0xF000 = p) :
    regRegWord (familyNibble p) (fieldX w) (fieldY w) (BitVec.ofNat 4 (fieldN w)) = w := by
  rw [familyNibble, ofNat_fieldN, extractLsb'_of_and h (by decide)]
  exact regRegWord_fields w

theorem regRegWord_of_and_fn {w p : Word} (h : w &&& 0xF00F = p) :
    regRegWord (familyNibble p) (fieldX w) (fieldY w) (p.extractLsb' 0 4) = w := by
  rw [familyNibble, extractLsb'_of_and h (by decide), extractLsb'_of_and h (by decide)]
  exact regRegWord_fields w

/-- The mask of a row covers every bit outside its fields: the word is that of the instruction the row assembles. -/
theorem encodeWord_assemble {r : Row} (hr : r ∈ opcodeTable) {w : Word} :
    w &&& r.mask = r.pattern → encodeWord (assemble r.op w) = w := by
  revert r
  simp only [opcodeTable, List.forall_mem_cons, List.not_mem_nil, false_imp_iff, implies_true, and_true]
  have hret (h : w &&& 0xFFFF = 0x00EE) : encodeWord .ret = w := by
    rw [encodeWord, ← h]
    exact BitVec.and_allOnes
  exact ⟨hret, addrWord_of_and, addrWord_of_and, regByteWord_of_and, regByteWord_of_and, regByteWord_of_and,
    regByteWord_of_and, regRegWord_of_and_fn, regRegWord_of_and_fn, regRegWord_of_and_fn, regRegWord_of_and_fn,
    addrWord_of_and, regByteWord_of_and, regRegWord_of_and, regByteWord_of_and_fn, regByteWord_of_and_fn,
    regByteWord_of_and_fn, regByteWord_of_and_fn, regByteWord_of_and_fn, regByteWord_of_and_fn, regByteWord_of_and_fn⟩

/-- The row count read from a word fits its field. -/
theorem wellFormed_assemble (op : Opcode) (w : Word) : (assemble op w).wellFormed = true := by
  cases op with
  | drw => exact decide_eq_true (Nat.le_of_lt_succ (w.extractLsb' 0 4).isLt)
  | _ => rfl

/-- The decoder is the inverse of the encoder on the well-formed instructions. -/
theorem decodeWord_eq_some_iff {w : Word} {i : Instr} :
    decodeWord w = some i ↔ i.wellFormed = true ∧ encodeWord i = w := by
  constructor
  · intro h
    obtain ⟨r, hr, hrw, rfl⟩ := exists_row_of_decodeWord h
    exact ⟨wellFormed_assemble r.op w, encodeWord_assemble hr ((r.selects_iff w).mp hrw)⟩
  · rintro ⟨hwf, rfl⟩
    exact decodeWord_encodeWord hwf

/-- Settles O3: a row's mask leaves only its fields free, so the row and the fields give the word back. -/
theorem encodeDecodeAgree : Obligations.EncodeDecodeAgree := fun _ _ => decodeWord_eq_some_iff.mp

/-! ## The opcode map by nibbles (R72) -/

theorem regBits_eq_iff {r : Reg} {b : Nibble} : regBits r = b ↔ r = nibbleReg b := by
  rw [← BitVec.toNat_inj, regBits_toNat, Fin.ext_iff, nibbleReg]

theorem addrWord_eq_nibbles_iff {n n1 n2 n3 n4 : Nibble} {nnn : BitVec 12} :
    addrWord n nnn = n1 ++ n2 ++ n3 ++ n4 ↔ n = n1 ∧ nnn = n2 ++ n3 ++ n4 := by
  rw [nibbles_eq_append_addr, addrWord, append_inj_iff]

theorem regByteWord_eq_nibbles_iff {n n1 n2 n3 n4 : Nibble} {x : Reg} {kk : Byte} :
    regByteWord n x kk = n1 ++ n2 ++ n3 ++ n4 ↔ n = n1 ∧ x = nibbleReg n2 ∧ kk = n3 ++ n4 := by
  rw [nibbles_eq_append_byte, regByteWord, append_inj_iff, append_inj_iff, regBits_eq_iff, and_assoc]

theorem regRegWord_eq_nibbles_iff {n n1 n2 n3 n4 f : Nibble} {x y : Reg} :
    regRegWord n x y f = n1 ++ n2 ++ n3 ++ n4 ↔ n = n1 ∧ x = nibbleReg n2 ∧ y = nibbleReg n3 ∧ f = n4 := by
  rw [regRegWord, append_inj_iff, append_inj_iff, append_inj_iff, regBits_eq_iff, regBits_eq_iff, and_assoc, and_assoc]

/-- The map's entry for the nibbles of an instruction's word is the instruction. -/
theorem familyMap_of_encodeWord {i : Instr} (hwf : i.wellFormed = true) {n1 n2 n3 n4 : Nibble}
    (h : encodeWord i = n1 ++ n2 ++ n3 ++ n4) : familyMap n1 n2 n3 n4 = some i := by
  cases i with
  | ret =>
    have hnib : (0x0#4 ++ 0x0#4 ++ 0xE#4 ++ 0xE#4 : Word) = n1 ++ n2 ++ n3 ++ n4 := h
    simp only [append_inj_iff] at hnib
    obtain ⟨⟨⟨rfl, rfl⟩, rfl⟩, rfl⟩ := hnib
    rfl
  | jp | call | ldI =>
    obtain ⟨rfl, rfl⟩ := addrWord_eq_nibbles_iff.mp h
    rfl
  | seImm | sneImm | ldImm | addImm | rnd =>
    obtain ⟨rfl, rfl, rfl⟩ := regByteWord_eq_nibbles_iff.mp h
    rfl
  | ldReg | andReg | addReg | subReg =>
    obtain ⟨rfl, rfl, rfl, rfl⟩ := regRegWord_eq_nibbles_iff.mp h
    rfl
  | drw x y n =>
    obtain ⟨rfl, rfl, rfl, rfl⟩ := regRegWord_eq_nibbles_iff.mp h
    have hn : n < 16 := Nat.lt_succ_of_le (of_decide_eq_true hwf)
    simp [familyMap, Nat.mod_eq_of_lt hn]
  | sknp | ldVxDt | ldDtVx | ldStVx | ldF | ldB | ldVxI =>
    obtain ⟨rfl, rfl, hfn⟩ := regByteWord_eq_nibbles_iff.mp h
    obtain ⟨rfl, rfl⟩ := byte_eq_nibbles_iff.mp hfn
    rfl

/-- The nibbles of an entry of the map are those of the instruction's word. -/
theorem encodeWord_of_familyMap {i : Instr} {n1 n2 n3 n4 : Nibble} (h : familyMap n1 n2 n3 n4 = some i) :
    i.wellFormed = true ∧ encodeWord i = n1 ++ n2 ++ n3 ++ n4 := by
  unfold familyMap at h
  split at h
  -- family 0
  case h_1 hn1 =>
    split at h
    case isTrue hrest =>
      obtain ⟨rfl, rfl, rfl⟩ := hrest
      obtain rfl : 0x0 = n1 := BitVec.eq_of_toNat_eq hn1.symm
      obtain rfl := Option.some.inj h
      exact ⟨rfl, rfl⟩
    case isFalse => cases h
  -- families 1, 2 and A: an address
  case h_2 hn1 | h_3 hn1 | h_9 hn1 =>
    obtain rfl := Option.some.inj h
    exact ⟨rfl, addrWord_eq_nibbles_iff.mpr ⟨BitVec.eq_of_toNat_eq hn1.symm, rfl⟩⟩
  -- families 3, 4, 6, 7 and C: a register and a byte
  case h_4 hn1 | h_5 hn1 | h_6 hn1 | h_7 hn1 | h_10 hn1 =>
    obtain rfl := Option.some.inj h
    exact ⟨rfl, regByteWord_eq_nibbles_iff.mpr ⟨BitVec.eq_of_toNat_eq hn1.symm, rfl, rfl⟩⟩
  -- family 8, by its function nibble
  case h_8 hn1 =>
    split at h
    case h_5 => cases h
    case h_1 hn4 | h_2 hn4 | h_3 hn4 | h_4 hn4 =>
      obtain rfl := Option.some.inj h
      exact ⟨rfl, regRegWord_eq_nibbles_iff.mpr
        ⟨BitVec.eq_of_toNat_eq hn1.symm, rfl, rfl, BitVec.eq_of_toNat_eq hn4.symm⟩⟩
  -- family D
  case h_11 hn1 =>
    obtain rfl := Option.some.inj h
    refine ⟨decide_eq_true (Nat.le_of_lt_succ n4.isLt), regRegWord_eq_nibbles_iff.mpr
      ⟨BitVec.eq_of_toNat_eq hn1.symm, rfl, rfl, ?_⟩⟩
    rw [BitVec.ofNat_toNat, BitVec.setWidth_eq]
  -- family E
  case h_12 hn1 =>
    split at h
    case isTrue hfn =>
      obtain ⟨rfl, rfl⟩ := hfn
      obtain rfl := Option.some.inj h
      exact ⟨rfl, regByteWord_eq_nibbles_iff.mpr ⟨BitVec.eq_of_toNat_eq hn1.symm, rfl, rfl⟩⟩
    case isFalse => cases h
  -- family F, by its function byte
  case h_13 hn1 =>
    split at h
    case h_7 => cases h
    case h_1 hn3 hn4 | h_2 hn3 hn4 | h_3 hn3 hn4 | h_4 hn3 hn4 | h_5 hn3 hn4 | h_6 hn3 hn4 =>
      obtain rfl := Option.some.inj h
      exact ⟨rfl, regByteWord_eq_nibbles_iff.mpr ⟨BitVec.eq_of_toNat_eq hn1.symm, rfl,
        byte_eq_nibbles_iff.mpr ⟨BitVec.eq_of_toNat_eq hn3.symm, BitVec.eq_of_toNat_eq hn4.symm⟩⟩⟩
  case h_14 => cases h

/-- Settles O5: the decoder and the map give an instruction for exactly the nibbles of its word. -/
theorem opcodeMapByFamilyNibble : Obligations.OpcodeMapByFamilyNibble := by
  intro n1 n2 n3 n4
  refine Option.ext fun i => decodeWord_eq_some_iff.trans ⟨?_, encodeWord_of_familyMap⟩
  rintro ⟨hwf, hw⟩
  exact familyMap_of_encodeWord hwf hw

/-! ## The words that the wider CHIP-8 set uses (R76) -/

theorem decodeWord_append_addr (n1 : Nibble) (nnn : BitVec 12) :
    decodeWord (n1 ++ nnn) = familyMap n1 (nnn.extractLsb' 8 4) (nnn.extractLsb' 4 4) (nnn.extractLsb' 0 4) := by
  rw [← opcodeMapByFamilyNibble, nibbles_eq_append_addr, addr_nibbles]

theorem decodeWord_append_byte (n1 n2 : Nibble) (kk : Byte) :
    decodeWord (n1 ++ n2 ++ kk) = familyMap n1 n2 (kk.extractLsb' 4 4) (kk.extractLsb' 0 4) := by
  rw [← opcodeMapByFamilyNibble, nibbles_eq_append_byte, byte_nibbles]

/-- The opcode map has no entry for the words R76 names. -/
theorem decodeWord_of_omittedChip8Word {w : Word} (h : OmittedChip8Word w) : decodeWord w = none := by
  obtain ⟨nnn, hne, rfl⟩ | ⟨x, y, rfl⟩ | ⟨x, y, f, hf, rfl⟩ | ⟨x, y, rfl⟩ | ⟨nnn, rfl⟩ | ⟨x, rfl⟩ | ⟨x, f, hf, rfl⟩ := h
  · rw [decodeWord_append_addr]
    refine if_neg fun ⟨hhi, hmid, hlo⟩ => hne ?_
    rw [← addr_nibbles nnn, hhi, hmid, hlo]
    rfl
  · exact opcodeMapByFamilyNibble 0x5 x y 0x0
  · rw [opcodeMapByFamilyNibble]
    simp only [List.mem_cons, List.not_mem_nil, or_false] at hf
    obtain rfl | rfl | rfl | rfl | rfl := hf <;> rfl
  · exact opcodeMapByFamilyNibble 0x9 x y 0x0
  · exact decodeWord_append_addr 0xB nnn
  · exact decodeWord_append_byte 0xE x 0x9E
  · rw [decodeWord_append_byte]
    simp only [List.mem_cons, List.not_mem_nil, or_false] at hf
    obtain rfl | rfl | rfl := hf <;> rfl

/-- Settles O6: none of the words decodes, so the cycle takes the decode fault on the state it began with. -/
theorem omittedChip8WordsFault : Obligations.OmittedChip8WordsFault := by
  intro s hrun hpc homitted
  exact ⟨_, Machine.step_of_illegal s hrun (Nat.succ_le_succ hpc) (decodeWord_of_omittedChip8Word homitted),
    Machine.faulted_raise s .decodeFault _⟩

/-! ## One word of every row (R73) -/

/-- Settles O1, by running the decoder on the 21 words. -/
theorem writtenOutWordsDecode : Obligations.WrittenOutWordsDecode := by
  unfold Obligations.WrittenOutWordsDecode
  decide

end Sys2Proof

/-! # The cycle (40_cycle.md)

What a cycle answers, what a faulting, a completed and a parked cycle change, and where the operand order is read. -/

namespace Sys2Proof.Machine

/-! ## What Execute answers (R85) -/

/-- Execute answers a next state, or stops at a stack slot that does not exist. -/
theorem exec_answers (i : Instr) (s : State) :
    (∃ t, exec i s = .next t) ∨ (16 < s.sp.toNat ∧ ∃ r, exec i s = .fault r) := by
  cases i with
  | ret =>
    by_cases h0 : s.sp = 0
    · exact .inl ⟨_, execRet_of_empty s h0⟩
    · rcases Nat.lt_or_ge (s.sp.toNat - 1) 16 with hlt | hge
      · exact .inl ⟨_, (execRet_of_pos s h0).trans (s.popAndGo_of_lt hlt)⟩
      · exact .inr ⟨by omega, _, (execRet_of_pos s h0).trans (s.popAndGo_of_le hge)⟩
  | call nnn =>
    rcases Nat.lt_trichotomy s.sp.toNat 16 with hlt | heq | hgt
    · exact .inl ⟨_, (execCall_of_ne nnn s hlt.ne).trans (s.pushPcAndGo_of_lt _ hlt)⟩
    · exact .inl ⟨_, execCall_of_full nnn s heq⟩
    · exact .inr ⟨hgt, _, (execCall_of_ne nnn s hgt.ne').trans (s.pushPcAndGo_of_le _ hgt.le)⟩
  | sknp | drw | ldB | ldVxI =>
    left
    simp only [exec, execSknp, execDrw, execLdB, execLdVxI]
    split <;> exact ⟨_, rfl⟩
  | jp | seImm | sneImm | ldImm | addImm | ldReg | andReg | addReg | subReg | rnd | ldI | ldF | ldVxDt | ldDtVx | ldStVx =>
    exact .inl ⟨_, rfl⟩

/-- Every instruction has a meaning. -/
theorem exec_ne_refused (i : Instr) (s : State) (r : Refusal) : exec i s ≠ .refused r := by
  obtain ⟨t, ht⟩ | ⟨-, f, hf⟩ := exec_answers i s
  · simp [ht]
  · simp [hf]

/-! ## The cycle of a decoded instruction (R81) -/

theorem decode_word_eq_ok_iff {hi lo : Byte} {i : Instr} :
    decode [hi, lo] = .ok (i, []) ↔ decodeWord (wordOfBytes hi lo) = some i := by
  rw [decode]
  cases decodeWord (wordOfBytes hi lo) <;> simp

/-- Settles O7: the machine runs `i`, and a cycle of it ends as its Execute answers. -/
theorem stepRunsDecodedInstruction : Obligations.StepRunsDecodedInstruction := by
  intro s i hrun hpc hdec
  have hi : s.Runs i := ⟨hrun, Nat.succ_le_succ hpc, decode_word_eq_ok_iff.mp hdec⟩
  refine ⟨fun t hx ht => hi.step_of_running hx ht, fun t hx ht => ?_, fun r hx => ?_, exec_ne_refused i s⟩
  · rw [hi.step, hx]
    simp [endCycle, ht]
  · rw [hi.step, hx]
    rfl

/-- A cycle runs the instruction at pc, or answers a next state. -/
theorem State.runs_or_step_next (s : State) : (∃ i, s.Runs i) ∨ ∃ t, step s = .next t := by
  cases hrun : s.halted with
  | true => exact .inr ⟨_, step_of_halted s hrun⟩
  | false =>
    rcases Nat.lt_trichotomy s.pc.toNat Config.lastAddr with hlt | heq | hgt
    · cases hdec : decodeWord (s.wordAt s.pc.toNat) with
      | none => exact .inr ⟨_, step_of_illegal s hrun hlt hdec⟩
      | some i => exact .inl ⟨i, hrun, hlt, hdec⟩
    · exact .inr ⟨_, step_of_fetch_error s hrun (s.fetch_of_eq heq)⟩
    · exact .inr ⟨_, step_of_fetch_error s hrun (s.fetch_of_lt hgt)⟩

/-- Settles O45: Execute stops only with sp above 16, which the invariant excludes. -/
theorem everyCycleAnswersANextState : Obligations.EveryCycleAnswersANextState := by
  intro s hs
  obtain ⟨i, hi⟩ | hnext := s.runs_or_step_next
  · obtain ⟨t, ht⟩ | ⟨hsp, -⟩ := exec_answers i s
    · exact ⟨_, by rw [hi.step, ht]; rfl⟩
    · exact absurd hs.spRange hsp.not_ge
  · exact hnext

/-! ## Faulting and completed cycles (R87, R90) -/

/-- A cycle of a running machine takes a fault on the state it began with, or completes an instruction and steps the
timers. -/
theorem step_faults_or_completes {s t : State} (hrun : s.halted = false) (h : step s = .next t) :
    t.RaisedFrom s ∨ ∃ i u, s.Runs i ∧ exec i s = .next u ∧ u.halted = false ∧ t = u.timerStep := by
  obtain ⟨hh, -⟩ | ⟨-, ⟨r, -, rfl⟩ | ⟨-, -, rfl⟩ | ⟨i, u, hi, hu, rfl⟩⟩ := step_cases h
  · simp [hrun] at hh
  · exact .inl ⟨_, _, rfl⟩
  · exact .inl ⟨_, _, rfl⟩
  · obtain ⟨c, w, rfl⟩ | ⟨hh, -⟩ := exec_next_cases hu
    · exact .inl ⟨c, w, rfl⟩
    · have hu' : u.halted = false := hh.trans hrun
      exact .inr ⟨i, u, hi, hu, hu', by simp [hu']⟩

/-- Settles O10: a completed cycle does not halt, so the cycle took a fault. -/
theorem faultingCycleIsPrecise : Obligations.FaultingCycleIsPrecise := by
  intro s t hrun h ht
  obtain ⟨c, w, rfl⟩ | ⟨i, u, -, -, hu, rfl⟩ := step_faults_or_completes hrun h
  · exact ⟨rfl, c, w, faulted_raise s c w⟩
  · rw [State.timerStep_halted, hu] at ht
    cases ht

/-- The timer step changes the timers and the event alone (R90, R91). -/
theorem sameBut_timerStep (s : State) : SameBut [.DT, .ST, .soundExpired] s s.timerStep := fun p hp => by
  cases p with
  | DT | ST | soundExpired => simp at hp
  | mem | V | fb | key => exact fun _ => rfl
  | I | pc | stack | sp | draw | halted | fault | rndDraws | config => rfl

/-- Settles O14: the cycle ends with the timer step of the state Execute leaves. -/
theorem completedCycleStepsTimers : Obligations.CompletedCycleStepsTimers := by
  intro s u i hi hu hrun
  exact ⟨_, hi.step_of_running hu hrun, countDown_toNat _, countDown_toNat _, sameBut_timerStep u⟩

/-! ## The sound timer over several cycles (R91) -/

/-- Execute leaves the sound timer, unless the instruction is LD ST. -/
theorem exec_ST {i : Instr} {s t : State} (h : exec i s = .next t) (hi : ∀ x, i ≠ .ldStVx x) : t.ST = s.ST := by
  obtain ⟨-, -, -, -, -, hST, -⟩ := onlyNamedInstructionsWriteEachPart i s t h
  by_contra hne
  obtain ⟨x, rfl⟩ := hST hne
  exact hi x rfl

/-- No cycle sets a halted machine running. -/
theorem running_of_step {s t : State} (h : step s = .next t) (ht : t.halted = false) : s.halted = false := by
  cases hs : s.halted with
  | false => rfl
  | true =>
    rw [step_of_halted s hs] at h
    rw [next_inj h, hs] at ht
    cases ht

/-- A cycle that completes and is no LD ST counts ST down, and emits the event where ST was 1. -/
theorem step_counts_ST_down {s t : State} (h : step s = .next t) (ht : t.halted = false)
    (hi : ∀ x, ¬ s.Runs (.ldStVx x)) :
    t.ST.toNat = s.ST.toNat - 1 ∧ t.soundExpired = s.soundExpired + (if s.ST.toNat = 1 then 1 else 0) := by
  obtain ⟨c, w, rfl⟩ | ⟨i, u, hri, hu, -, rfl⟩ := step_faults_or_completes (running_of_step h ht) h
  · cases ht
  have hST : u.ST = s.ST := exec_ST hu fun x e => hi x (e ▸ hri)
  have hone : s.ST = 1 ↔ s.ST.toNat = 1 := BitVec.toNat_inj.symm
  rw [State.timerStep_ST, State.timerStep_soundExpired, hST, exec_soundExpired hu, countDown_toNat]
  simp only [hone]
  split <;> simp

/-- Settles O16, by induction on the number of cycles: the cycle that emits the event is the one that finds ST at 1. -/
theorem soundExpiresInCycleNumberST : Obligations.SoundExpiresInCycleNumberST := by
  intro f n h
  induction n with
  | zero => exact ⟨rfl, by rw [if_neg (by omega), Nat.add_zero]⟩
  | succ n ih =>
    obtain ⟨hST, hsound⟩ := ih fun k hk => h k (hk.trans n.lt_succ_self)
    obtain ⟨hstep, hrun, hno⟩ := h n n.lt_succ_self
    obtain ⟨hST', hsound'⟩ := step_counts_ST_down hstep hrun hno
    rw [hST', hsound', hsound, hST]
    refine ⟨by omega, ?_⟩
    split_ifs <;> omega

/-! ## A parked machine (R93) -/

/-- The bytes of a JP to an address below 4096, in memory order. -/
theorem decodeWord_parking {a : Nat} (ha : a < 4096) :
    decodeWord (wordOfBytes (BitVec.ofNat 8 (0x10 ||| a >>> 8)) (BitVec.ofNat 8 (a &&& 0xFF))) =
      some (.jp (BitVec.ofNat 12 a)) := by
  refine decodeWord_eq_some_iff.mpr ⟨rfl, BitVec.eq_of_toNat_eq ?_⟩
  have hhigh : 0x10 ||| a >>> 8 = 0x10 + a / 256 := by
    rw [Nat.shiftRight_eq_div_pow]
    exact (Nat.shiftLeft_add_eq_or_of_lt (a := 1) (i := 4) (by omega)).symm
  have hlow : a &&& 0xFF = a % 256 := Nat.and_two_pow_sub_one_eq_mod a 8
  rw [wordOfBytes_toNat, hhigh, hlow, encodeWord, addrWord, BitVec.toNat_append,
    ← Nat.shiftLeft_add_eq_or_of_lt (BitVec.isLt _)]
  simp only [BitVec.ofNat_eq_ofNat, BitVec.toNat_ofNat]
  omega

theorem State.ParkedAt.runs {s : State} {a : Nat} (h : s.ParkedAt a) (hrun : s.halted = false) :
    s.Runs (.jp (BitVec.ofNat 12 a)) := by
  obtain ⟨rfl, ha, hhigh, hlow⟩ := h
  refine ⟨hrun, ha, ?_⟩
  rw [State.wordAt, hhigh, hlow]
  exact decodeWord_parking ((Nat.lt_of_succ_le ha).trans (by decide))

/-- A jump to where pc stands changes nothing, so a cycle of a parked machine is the timer step. -/
theorem State.ParkedAt.step {s : State} {a : Nat} (h : s.ParkedAt a) (hrun : s.halted = false) :
    step s = .next s.timerStep := by
  have hi := h.runs hrun
  obtain ⟨hpc, ha, -, -⟩ := h
  have htarget : addrOperand (BitVec.ofNat 12 a) = s.pc := by
    refine BitVec.eq_of_toNat_eq ?_
    rw [addrOperand_toNat, BitVec.toNat_ofNat, hpc]
    exact Nat.mod_eq_of_lt ((Nat.lt_of_succ_le ha).trans (by decide))
  have hx : exec (.jp (BitVec.ofNat 12 a)) s = .next s := by
    simp only [exec, execJp, htarget]
    rfl
  exact hi.step_of_running hx hrun

/-- One cycle of a parked machine, running or halted. -/
theorem State.ParkedAt.step_next {s : State} {a : Nat} (h : s.ParkedAt a) :
    ∃ t, Machine.step s = .next t ∧ t.ParkedAt a ∧ SameBut [.DT, .ST, .soundExpired] s t := by
  cases hrun : s.halted with
  | true => exact ⟨s, step_of_halted s hrun, h, SameBut.refl _ s⟩
  | false => exact ⟨_, h.step hrun, h, sameBut_timerStep s⟩

/-- Settles O50, by induction on the number of cycles. -/
theorem parkedMachineStaysParked : Obligations.ParkedMachineStaysParked := by
  intro s a k h
  induction k generalizing s with
  | zero => exact ⟨s, rfl, h, SameBut.refl _ s⟩
  | succ k ih =>
    obtain ⟨t, hst, ht, hsame⟩ := h.step_next
    obtain ⟨u, hrun, hu, hsame'⟩ := ih t ht
    exact ⟨u, (run_succ hst k).trans hrun, hu, hsame.trans hsame'⟩

/-! ## The operand order (R88) -/

section WithOrder

variable (o : OperandOrder)

@[simp] theorem State.getV_withOrder (s : State) (r : Reg) : (s.withOrder o).getV r = s.getV r := rfl

theorem State.drawCell_withOrder (s : State) (k : Fin 2048) :
    (s.withOrder o).drawCell k = (s.drawCell k).withOrder o := by
  have hk : (s.withOrder o).getFb k = s.getFb k := rfl
  simp only [State.drawCell, hk]
  split <;> rfl

theorem State.loadRegs_withOrder (s : State) (count : Nat) :
    (s.withOrder o).loadRegs count = (s.loadRegs count).withOrder o := by
  induction count with
  | zero => rfl
  | succ j ih =>
    simp only [State.loadRegs, ih, State.loadReg]
    split <;> rfl

/-- `t'` is `t` under the order `o`, and V[x] and V[y] hold the origin (vx, vy). -/
def State.SameDrawing (vx vy : Byte) (x y : Reg) (t t' : State) : Prop :=
  t' = t.withOrder o ∧ t.getV x = vx ∧ t.getV y = vy

variable {vx vy : Byte} {x y : Reg}

/-- While V[x] and V[y] hold the origin, both orders draw a bit alike; drawing writes VF alone, so they go on holding it. -/
theorem State.SameDrawing.drawBit {t t' : State} (h : State.SameDrawing o vx vy x y t t') (hx : x ≠ VF) (hy : y ≠ VF)
    (row : Nat) (bits : Byte) (col : Nat) :
    State.SameDrawing o vx vy x y (t.drawBit vx vy x y row bits col) (t'.drawBit vx vy x y row bits col) := by
  obtain ⟨rfl, hvx, hvy⟩ := h
  have hregs := (t.drawsOnly_drawBit vx vy x y row bits col).regs
  refine ⟨?_, (hregs x hx).trans hvx, (hregs y hy).trans hvy⟩
  simp only [State.drawBit, State.operand_of_getV t _ _ hvx, State.operand_of_getV t _ _ hvy,
    State.operand_of_getV (t.withOrder o) _ _ hvx, State.operand_of_getV (t.withOrder o) _ _ hvy]
  split
  · exact t.drawCell_withOrder o _
  · rfl

theorem State.SameDrawing.drawRow {t t' : State} (h : State.SameDrawing o vx vy x y t t') (hx : x ≠ VF) (hy : y ≠ VF)
    (row : Nat) : State.SameDrawing o vx vy x y (t.drawRow vx vy x y row) (t'.drawRow vx vy x y row) := by
  have hbits : t'.indexedByte row = t.indexedByte row := by rw [h.1]; rfl
  rw [State.drawRow, State.drawRow, hbits]
  exact List.foldl_rel h fun col _ u u' hu => hu.drawBit o hx hy row _ col

theorem State.drawSprite_withOrder (s : State) (hx : x ≠ VF) (hy : y ≠ VF) (n : Nat) :
    (s.withOrder o).drawSprite x y n = (s.drawSprite x y n).withOrder o := by
  have hstart : State.SameDrawing o (s.getV x) (s.getV y) x y (s.setV VF 0) ((s.withOrder o).setV VF 0) :=
    ⟨rfl, State.getV_setV_of_ne s VF x 0 hx, State.getV_setV_of_ne s VF y 0 hy⟩
  exact (List.foldl_rel hstart fun row _ u u' hu => hu.drawRow o hx hy row).1

/-- A register other than VF reads alike under both orders after a write of VF. -/
theorem State.operand_setVF (s : State) (v : Byte) {r : Reg} (hr : r ≠ VF) :
    (s.setV VF v).operand (s.getV r) r = s.getV r :=
  State.operand_of_getV _ _ _ (State.getV_setV_of_ne s VF r v hr)

/-- With VF no operand, the write of VF does not reach what SUB subtracts. -/
theorem execSubReg_withOrder (s : State) (hx : x ≠ VF) (hy : y ≠ VF) :
    execSubReg x y (s.withOrder o) = mapNext (State.withOrder · o) (execSubReg x y s) := by
  simp only [execSubReg, State.operand_setVF _ _ hx, State.operand_setVF _ _ hy]
  rfl

/-- Execute passes a change of the operand order on, unless the instruction is a SUB or a DRW that names VF. -/
theorem exec_withOrder {i : Instr} (s : State) (hsub : ∀ x y, i = .subReg x y → x ≠ VF ∧ y ≠ VF)
    (hdrw : ∀ x y n, i = .drw x y n → x ≠ VF ∧ y ≠ VF) :
    exec i (s.withOrder o) = mapNext (State.withOrder · o) (exec i s) := by
  cases i with
  | subReg x y =>
    obtain ⟨hx, hy⟩ := hsub x y rfl
    exact execSubReg_withOrder o s hx hy
  | drw x y n =>
    obtain ⟨hx, hy⟩ := hdrw x y n rfl
    simp only [exec, execDrw, apply_ite (mapNext _), s.drawSprite_withOrder o hx hy n]
    rfl
  | ret | call =>
    simp only [exec, execRet, execCall, State.popAndGo, State.pushPcAndGo, apply_ite (mapNext _), apply_dite (mapNext _)]
    rfl
  | sknp =>
    simp only [exec, execSknp, apply_dite (mapNext _)]
    rfl
  | ldB | ldVxI =>
    simp only [exec, execLdB, execLdVxI, State.loadRegs_withOrder, apply_ite (mapNext _)]
    rfl
  | jp | seImm | sneImm | ldImm | addImm | ldReg | andReg | addReg | rnd | ldI | ldF | ldVxDt | ldDtVx | ldStVx => rfl

end WithOrder

/-- SUB VF, V1 of 0x10 and 0x03 subtracts the old VF under LATCHED, and the flag 1 under SEQUENTIAL. -/
theorem execSubReg_vf_orders_differ (s : State) (hvf : s.getV VF = 0x10) (hv1 : s.getV 1 = 0x03) :
    ∃ t u, exec (.subReg VF 1) (s.withOrder .latched) = .next t ∧
      exec (.subReg VF 1) (s.withOrder .sequential) = .next u ∧ t.getV VF = 0x0D ∧ u.getV VF = 0xFE := by
  refine ⟨_, _, rfl, rfl, ?_, ?_⟩
  · rw [State.getV_advance, State.getV_setV_self, State.operand_latched _ _ _ rfl, State.operand_latched _ _ _ rfl,
      State.getV_withOrder, State.getV_withOrder, hvf, hv1]
    rfl
  · rw [State.getV_advance, State.getV_setV_self, State.operand_sequential _ _ _ rfl, State.operand_sequential _ _ _ rfl,
      State.getV_setV_self, State.getV_setV_of_ne _ _ _ _ (by decide), State.getV_withOrder, State.getV_withOrder,
      hvf, hv1]
    rfl

/-- Settles O46: but for the named cases, Execute passes the change of the order on. -/
theorem operandOrderMattersOnlyForSubAndDrwNamingVf : Obligations.OperandOrderMattersOnlyForSubAndDrwNamingVf := by
  refine ⟨fun i s o hsub hdrw => ?_, execSubReg_vf_orders_differ⟩
  rw [exec_withOrder o s hsub hdrw]
  refine ⟨fun t h => ?_, fun r h => ?_⟩
  · rw [h]
    rfl
  · rw [h]
    rfl

end Sys2Proof.Machine

/-! # Control flow (41_control_flow.md)

What RET, JP, CALL, SE and SNE answer, and that a RET takes back what a CALL pushed. -/

namespace Sys2Proof.Machine

/-! ## The frame of the updates of pc, sp and the stack

An update of a part that a frame leaves free keeps the frame. -/

theorem SameBut.setPc {ps : List Part} {s t : State} (h : SameBut ps s t) (hpc : .pc ∈ ps) (a : Word) :
    SameBut ps s (t.setPc a) := fun p hp => by
  cases p with
  | pc => exact absurd hpc hp
  | _ => exact h _ hp

theorem SameBut.withSp {ps : List Part} {s t : State} (h : SameBut ps s t) (hsp : .sp ∈ ps) (d : Byte) :
    SameBut ps s { t with sp := d } := fun p hp => by
  cases p with
  | sp => exact absurd hsp hp
  | _ => exact h _ hp

theorem SameBut.withStack {ps : List Part} {s t : State} (h : SameBut ps s t) (hst : .stack ∈ ps) (st : Vector Word 16) :
    SameBut ps s { t with stack := st } := fun p hp => by
  cases p with
  | stack => exact absurd hst hp
  | _ => exact h _ hp

/-! ## RET and CALL at a depth with a slot (R94, R96) -/

/-- With j + 1 slots in use, RET pops slot j. -/
theorem exec_ret_of_slot {s : State} {j : Nat} (hj : j < 16) (hsp : s.sp.toNat = j + 1) :
    exec .ret s = .next (State.setPc { s with sp := s.sp - 1 } (s.stack[j] + 2)) := by
  obtain rfl : j = s.sp.toNat - 1 := by omega
  calc execRet s = s.popAndGo := execRet_of_pos s (fun e => by simp [e] at hsp)
    _ = _ := s.popAndGo_of_lt hj

/-- With a slot free, CALL pushes pc on it. -/
theorem exec_call_of_lt (nnn : BitVec 12) {s : State} (hsp : s.sp.toNat < 16) :
    exec (.call nnn) s =
      .next (State.setPc { s with stack := s.stack.set s.sp.toNat s.pc, sp := s.sp + 1 } (addrOperand nnn)) :=
  (execCall_of_ne nnn s hsp.ne).trans (s.pushPcAndGo_of_lt _ hsp)

/-- A depth below 16 does not wrap in the 8 bits of sp (10_state.md R30). -/
theorem sp_add_one_toNat {sp : Byte} (h : sp.toNat < 16) : (sp + 1).toNat = sp.toNat + 1 := by bv_omega

/-- Settles O20: the RET finds the slot the CALL filled on top, and the slots below were not written. -/
theorem callThenRetResumesPastTheCall : Obligations.CallThenRetResumesPastTheCall := by
  intro nnn s hs
  refine ⟨_, exec_call_of_lt nnn hs, fun u hsp hstack => ?_⟩
  simp only [State.setPc_sp, State.setPc_stack] at hsp hstack
  have hdepth : u.sp.toNat = s.sp.toNat + 1 := by rw [hsp, sp_add_one_toNat hs]
  refine ⟨_, exec_ret_of_slot hs hdepth, ?_, ?_, fun k hk => ?_⟩
  · simp only [State.setPc_pc, hstack, Vector.getElem_set_self]
  · simp only [State.setPc_sp, hsp, BitVec.add_sub_cancel]
  · simp only [State.setPc_stack, hstack, Vector.getElem_set_ne _ _ hk.ne']

/-- Settles O17, by the check for an empty stack, or the pop. -/
theorem retPopsTheCallSite : Obligations.RetPopsTheCallSite := by
  refine ⟨decodeWord_encodeWord (i := .ret) rfl, fun s => ⟨fun hsp => ?_, fun j hsp => ?_⟩⟩
  · exact ⟨_, execRet_of_empty s (BitVec.eq_of_toNat_eq hsp), faulted_raise s _ _⟩
  · refine ⟨_, exec_ret_of_slot j.isLt hsp, ?_, rfl, ((SameBut.refl _ s).withSp (by decide) _).setPc (by decide) _⟩
    rw [State.setPc_sp]
    bv_omega

/-- Settles O19, by the check for a full stack, or the push. -/
theorem callPushesTheCallSite : Obligations.CallPushesTheCallSite := by
  refine fun nnn s => ⟨decodeWord_encodeWord (i := .call nnn) rfl, fun hsp => ?_, fun j hsp => ?_⟩
  · exact ⟨_, execCall_of_full nnn s hsp, faulted_raise s _ _⟩
  · have hlt : s.sp.toNat < 16 := hsp ▸ j.isLt
    refine ⟨_, exec_call_of_lt nnn hlt, ?_, fun k hk => ?_, ?_, addrOperand_toNat nnn, ?_⟩
    · simp only [State.setPc_stack, hsp, Vector.getElem_set_self]
    · have hne : s.sp.toNat ≠ k.val := fun e => hk (Fin.ext (e.symm.trans hsp))
      simp only [State.setPc_stack, Vector.getElem_set_ne _ _ hne]
    · rw [State.setPc_sp, sp_add_one_toNat hlt, hsp]
    · have hstack := (SameBut.refl [.stack, .sp, .pc] s).withStack (by decide) (s.stack.set s.sp.toNat s.pc)
      exact (hstack.withSp (by decide) (s.sp + 1)).setPc (by decide) _

/-! ## JP, SE and SNE (R95, R97, R98) -/

/-- Settles O18: JP writes pc alone. -/
theorem jpSetsPc : Obligations.JpSetsPc := fun nnn s =>
  ⟨decodeWord_encodeWord (i := .jp nnn) rfl, _, rfl, addrOperand_toNat nnn, (SameBut.refl _ s).setPc (by decide) _⟩

/-- An instruction that skips on a condition goes 4 on where it holds and 2 on where not, and writes pc alone. -/
theorem exec_skipIf {i : Instr} {s : State} {c : Bool} {P : Prop} (hx : exec i s = .next (s.skipIf c)) (hc : c = true ↔ P) :
    ∃ t, exec i s = .next t ∧ SameBut [.pc] s t ∧ (P → t.pc = s.pc + 4) ∧ (¬ P → t.pc = s.pc + 2) := by
  refine ⟨_, hx, (SameBut.refl _ s).setPc (by decide) _, fun h => ?_, fun h => ?_⟩
  · rw [State.skipIf_pc, if_pos (hc.mpr h)]
  · rw [State.skipIf_pc, if_neg (hc.not.mpr h)]

/-- Settles O22: SE skips on equal, SNE on not equal. -/
theorem skipsCompareRegisterWithByte : Obligations.SkipsCompareRegisterWithByte := by
  refine fun x kk s => ⟨decodeWord_encodeWord (i := .seImm x kk) rfl, decodeWord_encodeWord (i := .sneImm x kk) rfl, ?_, ?_⟩
  · exact exec_skipIf rfl beq_iff_eq
  · obtain ⟨t, hx, hframe, htaken, hnot⟩ := exec_skipIf (i := .sneImm x kk) (s := s) rfl bne_iff_ne
    exact ⟨t, hx, hframe, htaken, fun h => hnot (not_not_intro h)⟩

end Sys2Proof.Machine

/-! # Register loads and arithmetic (42_register_arith.md)

What LD, ADD, AND, SUB and RND write: one register, and VF before it where there is a flag. -/

namespace Sys2Proof.Machine

/-! ## The frame of a register write -/

theorem SameBut.setV {ps : List Part} {s t : State} (h : SameBut ps s t) (hV : .V ∈ ps) (r : Reg) (v : Byte) :
    SameBut ps s (t.setV r v) := fun p hp => by
  cases p with
  | V => exact absurd hV hp
  | _ => exact h _ hp

theorem SameBut.withRndDraws {ps : List Part} {s t : State} (h : SameBut ps s t) (hd : .rndDraws ∈ ps) (n : Nat) :
    SameBut ps s { t with rndDraws := n } := fun p hp => by
  cases p with
  | rndDraws => exact absurd hd hp
  | _ => exact h _ hp

theorem SameRegsBut.refl (rs : List Reg) (s : State) : SameRegsBut rs s s := fun _ _ => rfl

theorem SameRegsBut.setV {rs : List Reg} {s t : State} {r : Reg} (h : SameRegsBut rs s t) (hr : r ∈ rs) (v : Byte) :
    SameRegsBut rs s (t.setV r v) := fun q hq => by
  have hne : q ≠ r := fun e => hq (e ▸ hr)
  rw [State.getV_setV_of_ne _ _ _ _ hne, h q hq]

theorem sameRegsBut_setV (s : State) (x : Reg) (v : Byte) : SameRegsBut [x] s (s.setV x v) :=
  (SameRegsBut.refl _ s).setV (List.mem_singleton_self x) v

/-- A register write and the advance leave every part but the registers and pc, and what else the frame leaves free. -/
theorem sameBut_setV_advance {ps : List Part} (hV : .V ∈ ps) (hpc : .pc ∈ ps) {s t : State} (h : SameBut ps s t) (x : Reg)
    (v : Byte) : SameBut ps s (t.setV x v).advance :=
  (h.setV hV x v).setPc hpc _

/-! ## Writing one register (R99 to R102) -/

theorem writesOneReg_of_setV {i : Instr} {s : State} {x : Reg} {v : Byte} (hx : exec i s = .next (s.setV x v).advance) :
    WritesOneReg i s x v :=
  ⟨_, hx, State.getV_setV_self s x v, sameRegsBut_setV s x v, rfl,
    sameBut_setV_advance (by decide) (by decide) (SameBut.refl _ s) x v⟩

/-- The 8-bit sum is the sum modulo 256. -/
theorem byte_add_eq_ofNat_mod (a b : Byte) : a + b = BitVec.ofNat 8 ((a.toNat + b.toNat) % 256) := by bv_omega

/-- Settles O23: each of the four is one register write and the advance. -/
theorem loadsAndPlainArithmeticWriteVxOnly : Obligations.LoadsAndPlainArithmeticWriteVxOnly := by
  refine fun x y kk s => ⟨⟨decodeWord_encodeWord (i := .ldImm x kk) rfl, writesOneReg_of_setV rfl⟩,
    ⟨decodeWord_encodeWord (i := .addImm x kk) rfl, ?_⟩,
    ⟨decodeWord_encodeWord (i := .ldReg x y) rfl, writesOneReg_of_setV rfl⟩,
    ⟨decodeWord_encodeWord (i := .andReg x y) rfl, writesOneReg_of_setV rfl⟩⟩
  rw [← byte_add_eq_ofNat_mod]
  exact writesOneReg_of_setV rfl

/-! ## Writing a flag and then a register (R89, R103, R104) -/

/-- What ADD Vx,Vy and SUB leave: V[x] holds the result v, and VF the flag f unless x = F, where the later write stays. -/
structure WroteFlagThenReg (s t : State) (x : Reg) (f v : Byte) : Prop where
  result : t.getV x = v
  flag : x ≠ VF → t.getV VF = f
  regs : SameRegsBut [x, VF] s t
  pc : t.pc = s.pc + 2
  rest : SameBut [.V, .pc] s t

theorem wroteFlagThenReg_setV (s : State) (x : Reg) (f v : Byte) :
    WroteFlagThenReg s ((s.setV VF f).setV x v).advance x f v where
  result := State.getV_setV_self _ x v
  flag hx := by rw [State.getV_advance, State.getV_setV_of_ne _ _ _ _ hx.symm, State.getV_setV_self]
  regs := ((SameRegsBut.refl _ s).setV (by simp) f).setV (by simp) v
  pc := rfl
  rest := sameBut_setV_advance (by decide) (by decide) ((SameBut.refl _ s).setV (by decide) VF f) x v

/-- Settles O24: the carry goes to VF first, the sum of the values read before to V[x] after it. -/
theorem addWritesCarryThenSum : Obligations.AddWritesCarryThenSum := by
  intro x y s
  have h := wroteFlagThenReg_setV s x (carryFlag (s.getV x) (s.getV y)) (BitVec.ofNat 8 (sumOf (s.getV x) (s.getV y)))
  refine ⟨decodeWord_encodeWord (i := .addReg x y) rfl, _, rfl, ?_, h.flag, h.regs, h.pc, h.rest⟩
  rw [h.result, BitVec.toNat_ofNat]

/-- The result of SUB where the flag is f: the difference of the operands as they read once VF holds f. -/
def State.subDifference (s : State) (x y : Reg) (f : Byte) : Byte :=
  (s.setV VF f).operand (s.getV x) x - (s.setV VF f).operand (s.getV y) y

theorem execSubReg_eq (x y : Reg) (s : State) :
    execSubReg x y s = .next (((s.setV VF (greaterFlag (s.getV x) (s.getV y))).setV x
      (s.subDifference x y (greaterFlag (s.getV x) (s.getV y)))).advance) := rfl

theorem State.subDifference_latched {s : State} (h : s.config.vfOperandOrder = .latched) (x y : Reg) (f : Byte) :
    s.subDifference x y f = s.getV x - s.getV y := by
  rw [State.subDifference, State.operand_latched (s.setV VF f) _ _ h, State.operand_latched (s.setV VF f) _ _ h]

/-- Under SEQUENTIAL the operand VF reads the flag just written. -/
theorem State.operand_setVF_self {s : State} (h : s.config.vfOperandOrder = .sequential) (f v : Byte) :
    (s.setV VF f).operand v VF = f := by
  rw [State.operand_sequential (s.setV VF f) _ _ h, State.getV_setV_self]

/-- The table of R104 for SEQUENTIAL. -/
theorem State.subDifference_sequential {s : State} (h : s.config.vfOperandOrder = .sequential) (x y : Reg) (f : Byte) :
    (x ≠ VF → y ≠ VF → s.subDifference x y f = s.getV x - s.getV y) ∧
    (x = VF → y ≠ VF → s.subDifference x y f = f - s.getV y) ∧
    (x ≠ VF → y = VF → s.subDifference x y f = s.getV x - f) ∧
    (x = VF → y = VF → s.subDifference x y f = 0) := by
  refine ⟨fun hx hy => ?_, ?_, ?_, ?_⟩
  · rw [State.subDifference, State.operand_setVF _ _ hx, State.operand_setVF _ _ hy]
  · rintro rfl hy
    rw [State.subDifference, State.operand_setVF_self h, State.operand_setVF _ _ hy]
  · rintro hx rfl
    rw [State.subDifference, State.operand_setVF _ _ hx, State.operand_setVF_self h]
  · rintro rfl rfl
    exact BitVec.sub_self _

/-- Settles O25, by the operand order. -/
theorem subWritesGreaterThenDifference : Obligations.SubWritesGreaterThenDifference := by
  intro x y s
  have h := wroteFlagThenReg_setV s x (greaterFlag (s.getV x) (s.getV y))
    (s.subDifference x y (greaterFlag (s.getV x) (s.getV y)))
  refine ⟨decodeWord_encodeWord (i := .subReg x y) rfl, _, _, execSubReg_eq x y s, rfl, h.flag, fun ho => ?_, fun ho => ?_,
    h.regs, h.pc, h.rest⟩
  · rw [h.result, State.subDifference_latched ho]
  · rw [h.result]
    exact State.subDifference_sequential ho x y _

/-! ## RND (R105) -/

/-- Settles O26: a mask clears the bits that are clear in it. -/
theorem rndMasksAFreeByte : Obligations.RndMasksAFreeByte := by
  intro x kk s
  have hresult : (s.rndWith x kk (Config.rndByte s.rndDraws)).getV x = Config.rndByte s.rndDraws &&& kk :=
    State.getV_setV_self s x _
  have hframe := sameBut_setV_advance (ps := [.V, .pc, .rndDraws]) (by decide) (by decide) (SameBut.refl _ s) x
    (Config.rndByte s.rndDraws &&& kk)
  refine ⟨decodeWord_encodeWord (i := .rnd x kk) rfl, _, rfl, hresult, fun b hb => ?_, rfl, sameRegsBut_setV s x _, rfl,
    hframe.withRndDraws (by decide) _⟩
  refine (congrArg (BitVec.getLsbD · b) hresult).trans ?_
  rw [BitVec.getLsbD_and, hb, Bool.and_false]

end Sys2Proof.Machine

/-! # Index register and memory (43_index_memory.md)

What LD I, LD F, LD B and LD Vx,[I] answer: the index register, the three stored digits, the loaded registers. -/

namespace Sys2Proof.Machine

/-! ## The frame of the updates of I, memory and the registers -/

theorem SameBut.withI {ps : List Part} {s t : State} (h : SameBut ps s t) (hI : .I ∈ ps) (a : Word) :
    SameBut ps s { t with I := a } := fun p hp => by
  cases p with
  | I => exact absurd hI hp
  | _ => exact h _ hp

theorem SameBut.withMem {ps : List Part} {s t : State} (h : SameBut ps s t) (hm : .mem ∈ ps) (m : Memory) :
    SameBut ps s { t with mem := m } := fun p hp => by
  cases p with
  | mem => exact absurd hm hp
  | _ => exact h _ hp

theorem SameBut.withV {ps : List Part} {s t : State} (h : SameBut ps s t) (hV : .V ∈ ps) (V : Vector Byte 16) :
    SameBut ps s { t with V := V } := fun p hp => by
  cases p with
  | V => exact absurd hV hp
  | _ => exact h _ hp

/-! ## LD B (R108) -/

/-- The digits of a byte, stored from `a` on, read as its hundreds, tens and ones. -/
theorem Memory.read_writeList_decimalDigits {m : Memory} (hm : m.wf) {a : Nat} (ha : a + 2 ≤ 0xFFF) (v : Byte) :
    ((m.writeList a (decimalDigits v)).read a).toNat = v.toNat / 100 ∧
    ((m.writeList a (decimalDigits v)).read (a + 1)).toNat = v.toNat / 10 % 10 ∧
    ((m.writeList a (decimalDigits v)).read (a + 2)).toNat = v.toNat % 10 := by
  have hv : v.toNat < 256 := v.isLt
  have hread (j : Nat) (hj : j < 3) :
      ((m.writeList a (decimalDigits v)).read (a + j)).toNat = (decimalDigits v)[j].toNat :=
    congrArg BitVec.toNat (Memory.read_writeList hm (decimalDigits v) a j hj (Nat.succ_le_succ ha))
  refine ⟨(hread 0 (by decide)).trans ?_, (hread 1 (by decide)).trans ?_, (hread 2 (by decide)).trans ?_⟩
  all_goals
    refine (BitVec.toNat_ofNat ..).trans (Nat.mod_eq_of_lt ?_)
    omega

/-- Settles O28, by the range check, or the three stores. -/
theorem ldBStoresDecimalDigits : Obligations.LdBStoresDecimalDigits := by
  refine fun x s hm => ⟨decodeWord_encodeWord (i := .ldB x) rfl, fun hI => ?_, fun hI => ?_⟩
  · exact ⟨_, execLdB_of_lt x s hI, faulted_raise s _ _⟩
  · obtain ⟨hhundreds, htens, hones⟩ := Memory.read_writeList_decimalDigits hm hI (s.getV x)
    refine ⟨_, execLdB_of_fits x s hI, hhundreds, htens, hones, fun a ha => ?_,
      Memory.wf_writeList hm (decimalDigits (s.getV x)) _ (Nat.succ_le_succ hI), rfl,
      ((SameBut.refl _ s).withMem (by decide) _).setPc (by decide) _⟩
    exact Memory.read_writeList_of_outside _ (decimalDigits (s.getV x)) _ _ (ha.imp_right Nat.succ_le_of_lt)

/-! ## LD Vx, [I] (R109) -/

theorem sameBut_loadRegs {ps : List Part} (hV : .V ∈ ps) (s : State) (count : Nat) : SameBut ps s (s.loadRegs count) := by
  obtain ⟨V, h⟩ := s.loadRegs_eq count
  rw [h]
  exact (SameBut.refl ps s).withV hV V

/-- Settles O29, by the range check, or the loads of the first x + 1 registers. -/
theorem ldVxILoadsRegisters : Obligations.LdVxILoadsRegisters := by
  refine fun x s => ⟨decodeWord_encodeWord (i := .ldVxI x) rfl, fun hI => ?_, fun hI => ?_⟩
  · exact ⟨_, execLdVxI_of_lt x s hI, faulted_raise s _ _⟩
  · have hpc : (s.loadRegs (x.val + 1)).pc = s.pc := sameBut_loadRegs (ps := [.V]) (by decide) s _ .pc (by decide)
    refine ⟨_, execLdVxI_of_fits x s hI, fun r hr => ?_, fun r hr => ?_, ?_,
      (sameBut_loadRegs (by decide) s _).setPc (by decide) _⟩
    · rw [State.getV_advance, State.getV_loadRegs, if_pos (Nat.lt_succ_of_le hr), State.indexedByte]
    · rw [State.getV_advance, State.getV_loadRegs, if_neg (Nat.not_lt.mpr hr)]
    · rw [State.advance_pc, hpc]

/-! ## LD I and LD F (R106, R107) -/

/-- Five times a byte fits the 16 bits of I, so no masking shows. -/
theorem glyphAddr_toNat (v : Byte) : (glyphAddr v).toNat = v.toNat * 5 := by
  have hv : v.toNat < 256 := v.isLt
  rw [glyphAddr, BitVec.toNat_ofNat, Nat.mod_eq_of_lt (by omega)]

/-- An instruction that sets I and goes to the next writes I and pc alone. -/
theorem exec_setsI {i : Instr} {s : State} {a : Word} {n : Nat} (hx : exec i s = .next (State.advance { s with I := a }))
    (ha : a.toNat = n) : ∃ t, exec i s = .next t ∧ t.I.toNat = n ∧ t.pc = s.pc + 2 ∧ SameBut [.I, .pc] s t :=
  ⟨_, hx, ha, rfl, ((SameBut.refl _ s).withI (by decide) a).setPc (by decide) _⟩

/-- Settles O27: the operand is the address as it is, or the address of the glyph. -/
theorem indexLoadsSetI : Obligations.IndexLoadsSetI := fun nnn x s =>
  ⟨decodeWord_encodeWord (i := .ldI nnn) rfl, decodeWord_encodeWord (i := .ldF x) rfl,
    exec_setsI rfl (addrOperand_toNat nnn), exec_setsI rfl (glyphAddr_toNat (s.getV x))⟩

end Sys2Proof.Machine

/-! # Sprite draw (44_draw.md)

A DRW is one fold over its sprite bits. With the origin fixed (LATCHED, or neither operand VF) it flips a list of distinct cells;
under SEQUENTIAL each bit reads its origin from the state drawn so far. -/

namespace Sys2Proof.Machine

/-! ## Where a sprite bit lands (R111) -/

/-- Two bits of one sprite that go to one cell are the same bit. -/
theorem cellIndex_inj {vx vy : Byte} {row col row' col' : Nat} (hrow : row < 15) (hrow' : row' < 15) (hcol : col < 8)
    (hcol' : col' < 8) (h : cellIndex vx vy row col = cellIndex vx vy row' col') : row = row' ∧ col = col' := by
  have hmod : ((vx.toNat + col) + (vy.toNat + row) * 64) % 2048 = ((vx.toNat + col') + (vy.toNat + row') * 64) % 2048 :=
    congrArg Fin.val h
  have hcols : col = col' := by omega
  exact ⟨by omega, hcols⟩

/-- Settles O34: column and row are the remainder and the quotient of the index by 64. -/
theorem spriteBitCoordinates : Obligations.SpriteBitCoordinates := by
  intro vx vy row col
  refine ⟨?_, ?_, fun row' col' hrow hrow' hcol hcol' => cellIndex_inj hrow hrow' hcol hcol'⟩
  · calc ((vx.toNat + col) + (vy.toNat + row) * 64) % 2048 % 64
        = ((vx.toNat + col) + (vy.toNat + row) * 64) % 64 := Nat.mod_mul_left_mod _ 32 64
      _ = (vx.toNat + col) % 64 := Nat.add_mul_mod_self_right ..
  · calc ((vx.toNat + col) + (vy.toNat + row) * 64) % 2048 / 64
        = ((vx.toNat + col) + (vy.toNat + row) * 64) / 64 % 32 := Nat.mod_mul_left_div_self _ 64 32
      _ = ((vy.toNat + row) + (vx.toNat + col) / 64) % 32 := by
        rw [Nat.add_mul_div_right _ _ (by decide), Nat.add_comm]

/-! ## The frame of the updates of the framebuffer and the draw flag -/

/-- A frame that leaves more parts free says less. -/
theorem SameBut.mono {ps qs : List Part} {s t : State} (h : SameBut ps s t) (hsub : ps ⊆ qs) : SameBut qs s t :=
  fun p hp => h p (mt (@hsub p) hp)

theorem SameBut.withFb {ps : List Part} {s t : State} (h : SameBut ps s t) (hfb : .fb ∈ ps) (fb : Vector Bool 2048) :
    SameBut ps s { t with fb := fb } := fun p hp => by
  cases p with
  | fb => exact absurd hfb hp
  | _ => exact h _ hp

theorem SameBut.withDraw {ps : List Part} {s t : State} (h : SameBut ps s t) (hd : .draw ∈ ps) (b : Bool) :
    SameBut ps s { t with draw := b } := fun p hp => by
  cases p with
  | draw => exact absurd hd hp
  | _ => exact h _ hp

/-! ## DRW as one fold over its sprite bits (R110) -/

theorem mem_spriteBits {n : Nat} {p : Nat × Nat} : p ∈ spriteBits n ↔ p.1 < n ∧ p.2 < 8 := by
  rw [← List.mem_range, ← List.mem_range (m := p.2)]
  exact List.mem_product

theorem nodup_spriteBits (n : Nat) : (spriteBits n).Nodup := List.nodup_range.product List.nodup_range

/-- The sprite of `s` has a set bit at this row and column. -/
def State.spriteBit (s : State) (p : Nat × Nat) : Bool := (s.indexedByte p.1).getLsbD (7 - p.2)

/-- One sprite bit of the DRW that begins in `s`, drawn on what is drawn so far, `t`. -/
def State.drawAt (s : State) (x y : Reg) (t : State) (p : Nat × Nat) : State :=
  t.drawBit (s.getV x) (s.getV y) x y p.1 (s.indexedByte p.1) p.2

theorem State.drawAt_eq (s : State) (x y : Reg) (t : State) (p : Nat × Nat) :
    s.drawAt x y t p =
      if s.spriteBit p then t.drawCell (cellIndex (t.operand (s.getV x) x) (t.operand (s.getV y) y) p.1 p.2) else t := rfl

theorem State.drawsOnly_drawAt (s : State) (x y : Reg) (t : State) (p : Nat × Nat) : t.DrawsOnly (s.drawAt x y t p) :=
  t.drawsOnly_drawBit ..

theorem State.DrawsOnly.indexedByte {s t : State} (h : s.DrawsOnly t) (row : Nat) : t.indexedByte row = s.indexedByte row := by
  obtain ⟨V, fb, rfl⟩ := h.rest
  rfl

theorem State.DrawsOnly.sameBut {s t : State} (h : s.DrawsOnly t) : SameBut [.V, .fb] s t := by
  obtain ⟨V, fb, rfl⟩ := h.rest
  exact ((SameBut.refl _ s).withV (by decide) V).withFb (by decide) fb

theorem State.DrawsOnly.config {s t : State} (h : s.DrawsOnly t) : t.config = s.config := h.sameBut .config (by decide)

/-- Two folds are equal when their steps draw alike on every state that drawing reaches from `s`. -/
theorem State.DrawsOnly.foldl_congr {α : Type} {f g : State → α → State} {s t : State} (ht : s.DrawsOnly t)
    (hdraws : ∀ (u : State) a, u.DrawsOnly (f u a)) (hfg : ∀ u, s.DrawsOnly u → ∀ a, f u a = g u a) (l : List α) :
    l.foldl f t = l.foldl g t := by
  induction l generalizing t with
  | nil => rfl
  | cons a l ih =>
    rw [List.foldl_cons, List.foldl_cons, ← hfg t ht a]
    exact ih (ht.trans (hdraws t a))

/-- Drawing leaves I and memory, so every row is the one DRW began with. -/
theorem State.drawSprite_eq_foldl_drawAt (s : State) (x y : Reg) (n : Nat) :
    s.drawSprite x y n = (spriteBits n).foldl (s.drawAt x y) (s.setV VF 0) := by
  simp only [State.drawSprite, spriteBits, List.foldl_flatMap, List.foldl_map]
  refine (s.drawsOnly_setVF 0).foldl_congr (State.drawsOnly_drawRow _ _ x y) (fun u hu row => ?_) _
  rw [State.drawRow, hu.indexedByte]
  rfl

/-! ## What a DRW that completes leaves (R110) -/

/-- The state after a DRW that completes. -/
def State.drawn (s : State) (x y : Reg) (n : Nat) : State := State.advance { s.drawSprite x y n with draw := true }

theorem exec_drw_of_fits {x y : Reg} {n : Nat} {s : State} (h : n = 0 ∨ s.I.toNat + n - 1 ≤ 0xFFF) :
    exec (.drw x y n) s = .next (s.drawn x y n) :=
  execDrw_of_fits x y n s h

@[simp] theorem State.getFb_drawn (s : State) (x y : Reg) (n : Nat) (k : Fin 2048) :
    (s.drawn x y n).getFb k = (s.drawSprite x y n).getFb k := rfl

@[simp] theorem State.getV_drawn (s : State) (x y : Reg) (n : Nat) (r : Reg) :
    (s.drawn x y n).getV r = (s.drawSprite x y n).getV r := rfl

theorem sameRegsBut_drawn (s : State) (x y : Reg) (n : Nat) : SameRegsBut [VF] s (s.drawn x y n) := fun r hr =>
  (s.drawsOnly_drawSprite x y n).regs r (List.ne_of_not_mem_cons hr)

theorem State.drawn_pc (s : State) (x y : Reg) (n : Nat) : (s.drawn x y n).pc = s.pc + 2 :=
  congrArg (· + 2) ((s.drawsOnly_drawSprite x y n).sameBut .pc (by decide))

theorem sameBut_drawn (s : State) (x y : Reg) (n : Nat) : SameBut [.V, .fb, .draw, .pc] s (s.drawn x y n) :=
  (((s.drawsOnly_drawSprite x y n).sameBut.mono (by decide)).withDraw (by decide) true).setPc (by decide) _

/-- VF is cleared first and set on a collision, so it ends 0 or 1. -/
theorem State.getV_drawSprite_bit (s : State) (x y : Reg) (n : Nat) :
    (s.drawSprite x y n).getV VF = 0 ∨ (s.drawSprite x y n).getV VF = 1 := by
  rw [State.drawSprite_eq_foldl_drawAt]
  refine List.foldlRecOn (motive := fun t : State => t.getV VF = 0 ∨ t.getV VF = 1) _ _ (.inl (State.getV_setV_self s VF 0))
    fun t ht p _ => ?_
  rw [State.drawAt_eq]
  split
  · rw [State.getV_drawCell]
    split
    · exact .inr rfl
    · exact ht
  · exact ht

/-- Settles O30, by the range check, or the frame of drawing. -/
theorem drwFaultsPastMemoryElseCompletes : Obligations.DrwFaultsPastMemoryElseCompletes := by
  refine fun x y n s => ⟨fun hn => ?_, fun hn hI => ?_, fun hI => ?_⟩
  · exact decodeWord_encodeWord (i := .drw x y n) (decide_eq_true (Nat.le_of_lt_succ hn))
  · exact ⟨_, execDrw_of_lt x y n s hn hI, faulted_raise s _ _⟩
  · refine ⟨_, exec_drw_of_fits hI, rfl, s.getV_drawSprite_bit x y n, ?_, sameRegsBut_drawn s x y n, s.drawn_pc x y n,
      sameBut_drawn s x y n⟩
    rintro rfl
    exact ⟨State.getV_setV_self s VF 0, fun k => State.getFb_setV s VF 0 k⟩

/-! ## Drawing a list of distinct cells -/

/-- Each drawn cell flips once, and no other. -/
theorem State.getFb_foldl_drawCell {l : List (Fin 2048)} (hl : l.Nodup) (s : State) (k : Fin 2048) :
    (l.foldl State.drawCell s).getFb k = if k ∈ l then !s.getFb k else s.getFb k := by
  induction l generalizing s with
  | nil => rfl
  | cons a l ih =>
    obtain ⟨ha, hl⟩ := List.nodup_cons.mp hl
    rw [List.foldl_cons, ih hl, State.getFb_drawCell]
    by_cases hk : k = a
    · subst hk
      simp [ha]
    · simp [hk]

/-- VF reads 1 iff it did before or the drawn cell was 1. -/
theorem State.getV_drawCell_eq_one_iff (s : State) (k : Fin 2048) :
    (s.drawCell k).getV VF = 1 ↔ s.getV VF = 1 ∨ s.getFb k = true := by
  rw [State.getV_drawCell]
  by_cases hk : s.getFb k = true <;> simp [hk]

/-- VF reads 1 iff it did before or one of the drawn cells was 1. -/
theorem State.getV_foldl_drawCell_eq_one_iff {l : List (Fin 2048)} (hl : l.Nodup) (s : State) :
    (l.foldl State.drawCell s).getV VF = 1 ↔ s.getV VF = 1 ∨ ∃ k ∈ l, s.getFb k = true := by
  induction l generalizing s with
  | nil => simp
  | cons a l ih =>
    obtain ⟨ha, hl⟩ := List.nodup_cons.mp hl
    have hrest : (∃ k ∈ l, (s.drawCell a).getFb k = true) ↔ ∃ k ∈ l, s.getFb k = true :=
      exists_congr fun k => and_congr_right fun hk => by
        rw [State.getFb_drawCell, if_neg (ne_of_mem_of_not_mem hk ha)]
    simp only [List.foldl_cons, ih hl, State.getV_drawCell_eq_one_iff, hrest, or_assoc, List.mem_cons, exists_eq_or_imp]

/-! ## DRW with a fixed origin (R111) -/

/-- The operands of a DRW read the same at every bit: they are latched, or neither is VF (40_cycle.md R88). -/
def State.FixedOrigin (s : State) (x y : Reg) : Prop := s.config.vfOperandOrder = .latched ∨ (x ≠ VF ∧ y ≠ VF)

/-- An operand that is latched, or not VF, reads as at the start while a sprite is drawn. -/
theorem State.DrawsOnly.operand {s t : State} (h : s.DrawsOnly t) {r : Reg}
    (hr : s.config.vfOperandOrder = .latched ∨ r ≠ VF) : t.operand (s.getV r) r = s.getV r := by
  rcases hr with hlatched | hne
  · exact t.operand_latched _ r (h.config.symm ▸ hlatched)
  · exact t.operand_of_getV _ r (h.regs r hne)

/-- The cells under the set bits of the sprite of n rows, in drawing order. -/
def State.spriteCells (s : State) (vx vy : Byte) (n : Nat) : List (Fin 2048) :=
  ((spriteBits n).filter s.spriteBit).map fun p => cellIndex vx vy p.1 p.2

theorem spriteHits_iff_mem_spriteCells {s : State} {vx vy : Byte} {n : Nat} {k : Fin 2048} :
    SpriteHits s vx vy n k ↔ k ∈ s.spriteCells vx vy n := by
  simp only [State.spriteCells, List.mem_map, List.mem_filter, mem_spriteBits]
  constructor
  · rintro ⟨row, col, hrow, hcol, hbit, hk⟩
    exact ⟨(row, col), ⟨⟨hrow, hcol⟩, hbit⟩, Fin.ext hk⟩
  · rintro ⟨⟨row, col⟩, ⟨⟨hrow, hcol⟩, hbit⟩, hk⟩
    exact ⟨row, col, hrow, hcol, hbit, congrArg Fin.val hk⟩

theorem nodup_spriteCells (s : State) (vx vy : Byte) {n : Nat} (hn : n < 16) : (s.spriteCells vx vy n).Nodup := by
  refine List.Nodup.map_on (fun p hp q hq h => ?_) ((nodup_spriteBits n).filter _)
  obtain ⟨hprow, hpcol⟩ := mem_spriteBits.mp (List.mem_of_mem_filter hp)
  obtain ⟨hqrow, hqcol⟩ := mem_spriteBits.mp (List.mem_of_mem_filter hq)
  obtain ⟨hrow, hcol⟩ := cellIndex_inj (by omega) (by omega) hpcol hqcol h
  exact Prod.ext hrow hcol

/-- With the origin fixed, DRW clears VF and draws the cells of its set bits. -/
theorem State.drawSprite_of_fixedOrigin {s : State} {x y : Reg} (h : s.FixedOrigin x y) (n : Nat) :
    s.drawSprite x y n = (s.spriteCells (s.getV x) (s.getV y) n).foldl State.drawCell (s.setV VF 0) := by
  rw [State.drawSprite_eq_foldl_drawAt, State.spriteCells, List.foldl_map, List.foldl_filter]
  refine (s.drawsOnly_setVF 0).foldl_congr (s.drawsOnly_drawAt x y) (fun u hu p => ?_) _
  rw [State.drawAt_eq, hu.operand (h.imp_right And.left), hu.operand (h.imp_right And.right)]

section FixedOrigin

variable {s : State} {x y : Reg} {n : Nat}

theorem State.getFb_drawn_of_hit (h : s.FixedOrigin x y) (hn : n < 16) {k : Fin 2048}
    (hk : SpriteHits s (s.getV x) (s.getV y) n k) : (s.drawn x y n).getFb k = !s.getFb k := by
  rw [State.getFb_drawn, State.drawSprite_of_fixedOrigin h, State.getFb_foldl_drawCell (nodup_spriteCells _ _ _ hn),
    if_pos (spriteHits_iff_mem_spriteCells.mp hk), State.getFb_setV]

theorem State.getFb_drawn_of_not_hit (h : s.FixedOrigin x y) (hn : n < 16) {k : Fin 2048}
    (hk : ¬ SpriteHits s (s.getV x) (s.getV y) n k) : (s.drawn x y n).getFb k = s.getFb k := by
  rw [State.getFb_drawn, State.drawSprite_of_fixedOrigin h, State.getFb_foldl_drawCell (nodup_spriteCells _ _ _ hn),
    if_neg (mt spriteHits_iff_mem_spriteCells.mpr hk), State.getFb_setV]

/-- VF reports the collision. -/
theorem State.getV_drawn_eq_one_iff (h : s.FixedOrigin x y) (hn : n < 16) :
    (s.drawn x y n).getV VF = 1 ↔ ∃ k, SpriteHits s (s.getV x) (s.getV y) n k ∧ s.getFb k = true := by
  rw [State.getV_drawn, State.drawSprite_of_fixedOrigin h, State.getV_foldl_drawCell_eq_one_iff (nodup_spriteCells _ _ _ hn),
    State.getV_setV_self, or_iff_right (by decide)]
  simp only [State.getFb_setV, spriteHits_iff_mem_spriteCells]

end FixedOrigin

/-- Settles O31: the drawn cells are distinct, so each flips once. -/
theorem drwFlipsExactlyTheSpriteCells : Obligations.DrwFlipsExactlyTheSpriteCells := by
  intro x y n s hn hI horder
  have hfixed : s.FixedOrigin x y := horder
  have hcollision := State.getV_drawn_eq_one_iff hfixed hn
  exact ⟨_, exec_drw_of_fits hI, fun k => State.getFb_drawn_of_hit hfixed hn, fun k => State.getFb_drawn_of_not_hit hfixed hn,
    hcollision.mpr, fun hno => (s.getV_drawSprite_bit x y n).resolve_right (mt hcollision.mp hno), sameRegsBut_drawn s x y n,
    rfl, s.drawn_pc x y n, sameBut_drawn s x y n⟩

/-! ## Drawing twice (R111) -/

/-- The cells a sprite reaches depend on I and the sprite's bytes alone. -/
theorem spriteHits_congr {s u : State} {vx vy : Byte} {n : Nat} (hI : u.I = s.I)
    (hmem : ∀ row, row < n → u.mem.read (s.I.toNat + row) = s.mem.read (s.I.toNat + row)) (k : Fin 2048) :
    SpriteHits u vx vy n k ↔ SpriteHits s vx vy n k := by
  refine exists_congr fun row => exists_congr fun col => and_congr_right fun hrow => ?_
  rw [hI, hmem row hrow]

/-- Settles O33: a cell that is reached flips twice, and the second draw finds it as the first left it. -/
theorem drawingTwiceRestoresTheFramebuffer : Obligations.DrawingTwiceRestoresTheFramebuffer := by
  intro x y n s t u hn hI horder hconfig hexec hfb hx hy huI hmem
  obtain rfl : t = s.drawn x y n := next_inj ((exec_drw_of_fits hI).symm.trans hexec)
  have hfixed : s.FixedOrigin x y := horder
  have hfixed' : u.FixedOrigin x y := by rwa [State.FixedOrigin, hconfig]
  have hhits : ∀ k, SpriteHits u (u.getV x) (u.getV y) n k ↔ SpriteHits s (s.getV x) (s.getV y) n k := by
    rw [hx, hy]
    exact spriteHits_congr huI hmem
  refine ⟨_, exec_drw_of_fits (by rwa [huI]), fun k => ?_, ?_⟩
  · by_cases hk : SpriteHits s (s.getV x) (s.getV y) n k
    · rw [State.getFb_drawn_of_hit hfixed' hn ((hhits k).mpr hk), hfb, State.getFb_drawn_of_hit hfixed hn hk, Bool.not_not]
    · rw [State.getFb_drawn_of_not_hit hfixed' hn (mt (hhits k).mp hk), hfb, State.getFb_drawn_of_not_hit hfixed hn hk]
  · refine (State.getV_drawn_eq_one_iff hfixed' hn).trans (exists_congr fun k =>
      (and_congr_left' (hhits k)).trans (and_congr_right fun hk => ?_))
    rw [hfb, State.getFb_drawn_of_hit hfixed hn hk, Bool.not_eq_true']

/-! ## SEQUENTIAL (R88, R110) -/

/-- The byte VF holds for a collision so far. -/
def vfByte (collided : Bool) : Byte := if collided then 1 else 0

/-- `t` is drawn from `s` alone, and holds the cells and the collision so far. -/
structure State.DrawnSoFar (s t : State) (a : (Fin 2048 → Bool) × Bool) : Prop where
  draws : s.DrawsOnly t
  cells : ∀ k, t.getFb k = a.1 k
  vf : t.getV VF = vfByte a.2

/-- Under SEQUENTIAL an operand reads the collision so far if it is VF, and as at the start otherwise. -/
theorem State.DrawnSoFar.operand_toNat {s t : State} {a : (Fin 2048 → Bool) × Bool} (h : s.DrawnSoFar t a)
    (hseq : s.config.vfOperandOrder = .sequential) (r : Reg) :
    (t.operand (s.getV r) r).toNat = if r = VF then (if a.2 then 1 else 0) else (s.getV r).toNat := by
  rw [t.operand_sequential _ r (h.draws.config.symm ▸ hseq)]
  split
  · next hr =>
    rw [hr, h.vf]
    cases a.2 <;> rfl
  · next hr => rw [h.draws.regs r hr]

theorem State.DrawnSoFar.drawCell {s t : State} {a : (Fin 2048 → Bool) × Bool} (h : s.DrawnSoFar t a) (k : Fin 2048) :
    s.DrawnSoFar (t.drawCell k) (fun j => if j = k then !a.1 j else a.1 j, a.2 || a.1 k) where
  draws := h.draws.trans (t.drawsOnly_drawCell k)
  cells j := by rw [State.getFb_drawCell, h.cells]
  vf := by
    rw [State.getV_drawCell, h.cells, h.vf]
    cases a.1 k <;> cases a.2 <;> rfl

theorem State.DrawnSoFar.drawAt {s t : State} {a : (Fin 2048 → Bool) × Bool} (h : s.DrawnSoFar t a)
    (hseq : s.config.vfOperandOrder = .sequential) (x y : Reg) (p : Nat × Nat) :
    s.DrawnSoFar (s.drawAt x y t p) (sequentialBit s x y a p) := by
  rw [State.drawAt_eq]
  by_cases hbit : s.spriteBit p = true
  · rw [if_pos hbit, show sequentialBit s x y a p = _ from if_pos hbit]
    simp only [← h.operand_toNat hseq]
    exact h.drawCell _
  · rw [if_neg hbit, show sequentialBit s x y a p = _ from if_neg hbit]
    exact h

/-- Settles O32: both folds go over the same bits, and each bit keeps what is drawn so far. -/
theorem drwSequentialReadsVfAsCollisionSoFar : Obligations.DrwSequentialReadsVfAsCollisionSoFar := by
  intro x y n s hI hseq
  have hstart : s.DrawnSoFar (s.setV VF 0) (s.getFb, false) :=
    ⟨s.drawsOnly_setVF 0, fun _ => rfl, State.getV_setV_self s VF 0⟩
  have hend : s.DrawnSoFar (s.drawSprite x y n) ((spriteBits n).foldl (sequentialBit s x y) (s.getFb, false)) := by
    rw [State.drawSprite_eq_foldl_drawAt]
    exact List.foldl_rel hstart fun p _ t a h => h.drawAt hseq x y p
  exact ⟨_, exec_drw_of_fits hI, hend.cells, hend.vf⟩

end Sys2Proof.Machine

/-! # Key input and timers (45_input_timers.md)

What SKNP answers for a key number in range and above it, and that a timer transfer moves one byte. -/

namespace Sys2Proof.Machine

/-! ## SKNP (R112, R120) -/

/-- Settles O35, by the range of the key number: the fault, or the skip on a key that is not pressed. -/
theorem sknpSkipsIfKeyReleased : Obligations.SknpSkipsIfKeyReleased := by
  refine fun x s => ⟨decodeWord_encodeWord (i := .sknp x) rfl, fun hx => ?_, fun k hk => ?_⟩
  · exact ⟨_, execSknp_of_lt x s hx, faulted_raise s _ _⟩
  · have hskip : exec (.sknp x) s = .next (s.skipIf !s.getKey k) := execSknp_of_key x s k hk
    obtain ⟨t, ht, hframe, hreleased, hpressed⟩ := exec_skipIf hskip (iff_of_eq (Bool.not_eq_true' _))
    exact ⟨t, ht, hframe, hreleased, fun hdown => hpressed ((Bool.not_eq_false _).mpr hdown)⟩

/-! ## The timer transfers (R113 to R115) -/

theorem SameBut.withDT {ps : List Part} {s t : State} (h : SameBut ps s t) (hDT : .DT ∈ ps) (v : Byte) :
    SameBut ps s { t with DT := v } := fun p hp => by
  cases p with
  | DT => exact absurd hDT hp
  | _ => exact h _ hp

/-- Settles O36: LD Vx,DT is one register write and the advance, the other two one timer write and the advance. -/
theorem timerTransfersMoveOneByte : Obligations.TimerTransfersMoveOneByte := by
  refine fun x s => ⟨decodeWord_encodeWord (i := .ldVxDt x) rfl, decodeWord_encodeWord (i := .ldDtVx x) rfl,
    decodeWord_encodeWord (i := .ldStVx x) rfl, writesOneReg_of_setV rfl, ?_, ?_⟩
  · exact ⟨_, rfl, rfl, rfl, ((SameBut.refl _ s).withDT (by decide) _).setPc (by decide) _⟩
  · exact ⟨_, rfl, rfl, rfl, ((sameBut_withST s _).mono (by decide)).setPc (by decide) _⟩

end Sys2Proof.Machine

/-! # Exceptions (60_exceptions.md)

Which fault a cycle takes, in the priority order, and that a halted machine stays as it is. -/

namespace Sys2Proof.Machine

/-! ## The word of no row (R117) -/

/-- Settles O9: a word that selects no row does not decode, and the decode fault is taken on the state the cycle began
with. -/
theorem illegalWordRaisesDecodeFault : Obligations.IllegalWordRaisesDecodeFault := by
  intro s hrun hpc hno
  have hdec : decodeWord (s.wordAt s.pc.toNat) = none :=
    decodeWord_eq_none_iff.mpr fun r hr hsel => hno r hr ((r.selects_iff _).mp hsel)
  exact ⟨_, step_of_illegal s hrun (Nat.succ_le_succ hpc) hdec, faulted_raise s _ _, rfl⟩

/-! ## The run status in a frame -/

theorem SameBut.halted_eq {ps : List Part} {s t : State} (h : SameBut ps s t) (hp : .halted ∉ ps) :
    t.halted = s.halted := h .halted hp

theorem SameBut.fault_eq {ps : List Part} {s t : State} (h : SameBut ps s t) (hp : .fault ∉ ps) :
    t.fault = s.fault := h .fault hp

/-! ## A halted machine (R122) -/

theorem sameBut_hostAct (s : State) (a : HostAct) : SameBut [.key, .draw] s (s.hostAct a) := by
  obtain ⟨key, draw, e⟩ := s.hostAct_eq a
  rw [e]
  intro p hp
  cases p with
  | key | draw => simp at hp
  | mem | V | fb => exact fun _ => rfl
  | I | pc | stack | sp | DT | ST | halted | fault | soundExpired | rndDraws | config => rfl

/-- A sequence of events goes on from the state its first event leaves. -/
theorem State.events_cons {s t : State} {e : Event} (h : s.event e = .next t) (es : List Event) :
    s.events (e :: es) = t.events es := by
  rw [State.events, h]

/-- One event on a halted machine: a cycle changes nothing, an act of the host its two parts. -/
theorem State.event_of_halted {s : State} (h : s.halted = true) (e : Event) :
    ∃ t, s.event e = .next t ∧ SameBut [.key, .draw] s t := by
  cases e with
  | cycle => exact ⟨s, step_of_halted s h, SameBut.refl _ s⟩
  | host a => exact ⟨_, rfl, sameBut_hostAct s a⟩

/-- A halted machine answers any events within the frame of the host's acts. -/
theorem State.events_of_halted {s : State} (h : s.halted = true) (es : List Event) :
    ∃ t, s.events es = .next t ∧ SameBut [.key, .draw] s t := by
  induction es generalizing s with
  | nil => exact ⟨s, rfl, SameBut.refl _ s⟩
  | cons e es ih =>
    obtain ⟨t, hst, hsame⟩ := s.event_of_halted h e
    have ht : t.halted = true := (hsame.halted_eq (by decide)).trans h
    obtain ⟨u, hu, hsame'⟩ := ih ht
    exact ⟨u, (State.events_cons hst es).trans hu, hsame.trans hsame'⟩

theorem run_of_halted {s : State} (h : s.halted = true) (k : Nat) : Host.Core.run Sys2Proof.core k s = .next s := by
  induction k with
  | zero => rfl
  | succ k ih => exact (run_succ (step_of_halted s h) k).trans ih

/-- Settles O11, by induction on the cycles and on the events; the run status lies in the frame of the host's acts. -/
theorem haltedIsAbsorbing : Obligations.HaltedIsAbsorbing := by
  refine fun s h => ⟨run_of_halted h, fun es => ?_⟩
  obtain ⟨t, ht, hsame⟩ := s.events_of_halted h es
  exact ⟨t, ht, (hsame.halted_eq (by decide)).trans h, hsame⟩

/-! ## The priority order (R124): fetch bounds, then decode -/

theorem firstFault_of_fetch_error {s : State} {r : FaultRecord} (hf : s.fetch = .error r) : firstFault s = some r := by
  rcases Nat.lt_trichotomy s.pc.toNat Config.lastAddr with hlt | heq | hgt
  · rw [s.fetch_of_le hlt] at hf
    cases hf
  · rw [s.fetch_of_eq heq] at hf
    cases hf
    rw [firstFault, if_neg heq.le.not_gt, if_pos heq]
  · rw [s.fetch_of_lt hgt] at hf
    cases hf
    rw [firstFault, if_pos hgt]

theorem firstFault_of_illegal {s : State} (hp : s.pc.toNat + 1 ≤ Config.lastAddr)
    (hd : decodeWord (s.wordAt s.pc.toNat) = none) :
    firstFault s = some ⟨.decodeFault, s.wordAt s.pc.toNat⟩ := by
  simp only [firstFault, if_neg (Nat.le_of_succ_le hp).not_gt, if_neg (Nat.ne_of_lt hp), hd]

/-! ## The priority order: the instruction's own check -/

/-- The fault that an instruction's own check finds, with the info of R116. -/
def State.checkFault (s : State) : Instr → Option FaultRecord
  | .ret => if s.sp.toNat = 0 then some ⟨.stackUnderflow, 0x00EE⟩ else none
  | .call nnn => if s.sp.toNat = 16 then some ⟨.stackOverflow, encodeWord (.call nnn)⟩ else none
  | .sknp x => if 0xF < (s.getV x).toNat then some ⟨.keyIndex, (s.getV x).setWidth 16⟩ else none
  | .drw _ _ n => if 1 ≤ n ∧ 0xFFF < s.I.toNat + n - 1 then some ⟨.memoryBounds, firstAddrPastMemory⟩ else none
  | .ldB _ => if 0xFFF < s.I.toNat + 2 then some ⟨.memoryBounds, firstAddrPastMemory⟩ else none
  | .ldVxI x => if 0xFFF < s.I.toNat + x.val then some ⟨.memoryBounds, firstAddrPastMemory⟩ else none
  | .jp _ | .seImm _ _ | .sneImm _ _ | .ldImm _ _ | .addImm _ _ | .ldReg _ _ | .andReg _ _ | .addReg _ _ | .subReg _ _
  | .ldI _ | .rnd _ _ | .ldVxDt _ | .ldDtVx _ | .ldStVx _ | .ldF _ => none

/-- Where an instruction runs, its check alone is left; the CALL word is the word at pc. -/
theorem State.Runs.firstFault {s : State} {i : Instr} (h : s.Runs i) : firstFault s = s.checkFault i := by
  obtain ⟨-, hp, hd⟩ := h
  have hword : encodeWord i = s.wordAt s.pc.toNat := (encodeDecodeAgree _ i hd).2
  simp only [Machine.firstFault, if_neg (Nat.le_of_succ_le hp).not_gt, if_neg (Nat.ne_of_lt hp), hd]
  cases i with
  | call nnn => rw [State.checkFault, hword]
  | _ => rfl

/-- The run status records this fault, or that there is none. -/
def State.Records (t : State) (f : Option FaultRecord) : Prop := t.fault = f ∧ t.halted = f.isSome

theorem State.records_raise (s : State) (r : FaultRecord) : (s.raise r.cause r.info).Records (some r) := ⟨rfl, rfl⟩

/-- A running machine records no fault. -/
theorem Inv.records_none {s : State} (hs : Inv s) (hrun : s.halted = false) : s.Records none := by
  refine ⟨Option.not_isSome_iff_eq_none.mp fun h => ?_, hrun⟩
  simp [hs.haltedIffFault.mpr h] at hrun

theorem State.Records.of_sameBut {ps : List Part} {s t : State} {f : Option FaultRecord} (h : s.Records f)
    (hsame : SameBut ps s t) (hhalted : .halted ∉ ps) (hfault : .fault ∉ ps) : t.Records f :=
  ⟨(hsame.fault_eq hfault).trans h.1, (hsame.halted_eq hhalted).trans h.2⟩

/-- The end of a cycle leaves the run status. -/
theorem State.Records.endCycle {u : State} {f : Option FaultRecord} (h : u.Records f) :
    (if u.halted then u else u.timerStep).Records f := by
  split
  · exact h
  · exact h.of_sameBut (sameBut_timerStep u) (by decide) (by decide)

/-- An Execute that raises where its check fails, and else leaves the run status, records the fault of the check. -/
theorem exec_records_of_check {i : Instr} {s : State} {P : Prop} [Decidable P] {r : FaultRecord}
    (hraise : P → exec i s = .next (s.raise r.cause r.info))
    (hdone : ¬ P → ∃ u, exec i s = .next u ∧ u.Records none) :
    ∃ u, exec i s = .next u ∧ u.Records (if P then some r else none) := by
  split
  · exact ⟨_, hraise ‹P›, s.records_raise r⟩
  · exact hdone ‹¬ P›

/-- Execute on a running machine records the fault its check finds. -/
theorem exec_records_checkFault (i : Instr) {s : State} (hs : Inv s) (hrun : s.halted = false) :
    ∃ u, exec i s = .next u ∧ u.Records (s.checkFault i) := by
  have hclean : s.Records none := hs.records_none hrun
  have hsp : s.sp.toNat ≤ 16 := hs.spRange
  cases i with
  | ret =>
    refine exec_records_of_check (fun h => execRet_of_empty s (BitVec.eq_of_toNat_eq h)) fun h => ?_
    exact ⟨_, exec_ret_of_slot (j := s.sp.toNat - 1) (by omega) (by omega), hclean⟩
  | call nnn =>
    exact exec_records_of_check (execCall_of_full nnn s) fun h => ⟨_, exec_call_of_lt nnn (by omega), hclean⟩
  | sknp x =>
    refine exec_records_of_check (execSknp_of_lt x s) fun h => ?_
    exact ⟨_, execSknp_of_key x s ⟨(s.getV x).toNat, by omega⟩ rfl, hclean⟩
  | drw x y n =>
    refine exec_records_of_check (fun h => execDrw_of_lt x y n s h.1 h.2) fun h => ?_
    exact ⟨_, exec_drw_of_fits (by omega), hclean.of_sameBut (sameBut_drawn s x y n) (by decide) (by decide)⟩
  | ldB x =>
    exact exec_records_of_check (execLdB_of_lt x s) fun h => ⟨_, execLdB_of_fits x s (by omega), hclean⟩
  | ldVxI x =>
    refine exec_records_of_check (execLdVxI_of_lt x s) fun h => ?_
    have hload : (s.loadRegs (x.val + 1)).Records none :=
      hclean.of_sameBut (ps := [.V]) (sameBut_loadRegs (by decide) s _) (by decide) (by decide)
    exact ⟨_, execLdVxI_of_fits x s (by omega), hload⟩
  | jp | seImm | sneImm | ldImm | addImm | ldReg | andReg | addReg | subReg | ldI | rnd | ldVxDt | ldDtVx | ldStVx | ldF =>
    exact ⟨_, rfl, hclean⟩

/-- Settles O12, by how the cycle ends: at the fetch, at the decode, or with Execute and its check. -/
theorem faultRecordFollowsPriority : Obligations.FaultRecordFollowsPriority := by
  intro s t hs hrun h
  obtain ⟨hh, -⟩ | ⟨-, ⟨r, hf, rfl⟩ | ⟨hp, hd, rfl⟩ | ⟨i, u, hi, hu, rfl⟩⟩ := step_cases h
  · simp [hrun] at hh
  · rw [firstFault_of_fetch_error hf]
    exact s.records_raise r
  · rw [firstFault_of_illegal hp hd]
    exact s.records_raise ⟨.decodeFault, _⟩
  · obtain ⟨v, hv, hrec⟩ := exec_records_checkFault i hs hrun
    obtain rfl : v = u := next_inj (hu.symm.trans hv)
    rw [hi.firstFault]
    exact hrec.endCycle

end Sys2Proof.Machine

/-! # Reset, boot and the host (70_reset_and_hazards.md)

A run within the program obligations, what the loads and the host's acts change, and a timer write in its own cycle. -/

namespace Sys2Proof.Machine

/-! ## Runs free of faults (R150) -/

theorem State.Runs.running {s : State} {i : Instr} (h : s.Runs i) : s.halted = false := by
  obtain ⟨hrun, -, -⟩ := h
  exact hrun

/-- What an instruction demands is what its own check asks for. -/
theorem State.Allows.checkFault_eq_none {s : State} {i : Instr} (h : s.Allows i) : s.checkFault i = none := by
  cases i with
  | ret => exact if_neg (Nat.ne_of_gt h)
  | call nnn => exact if_neg (Nat.ne_of_lt h)
  | sknp | ldB | ldVxI => exact if_neg (Nat.not_lt.mpr h)
  | drw x y n =>
    simp only [State.Allows] at h
    exact if_neg (by omega)
  | jp | seImm | sneImm | ldImm | addImm | ldReg | andReg | addReg | subReg | ldI | rnd | ldVxDt | ldDtVx | ldStVx | ldF => rfl

/-- A cycle from a state that meets the obligations completes. -/
theorem State.MeetsObligations.step_next {s : State} (h : s.MeetsObligations) (hs : Inv s) :
    ∃ t, step s = .next t ∧ t.Records none := by
  obtain ⟨i, hi, hallows⟩ := h
  obtain ⟨t, ht⟩ := everyCycleAnswersANextState s hs
  have hrec : t.Records (firstFault s) := faultRecordFollowsPriority s t hs hi.running ht
  rw [hi.firstFault, hallows.checkFault_eq_none] at hrec
  exact ⟨t, ht, hrec⟩

/-- Settles O13, by induction on the number of cycles: each completes and keeps the invariant. -/
theorem obligationsKeepRunFaultFree : Obligations.ObligationsKeepRunFaultFree := by
  intro s n hs hrun hall
  induction n generalizing s with
  | zero =>
    obtain ⟨t, ht, hfault, hrunning⟩ := (hall 0 s le_rfl rfl).step_next hs
    exact ⟨t, run_succ ht 0, hrunning, hfault⟩
  | succ n ih =>
    obtain ⟨t, ht, -, hrunning⟩ := (hall 0 s n.succ.zero_le rfl).step_next hs
    obtain ⟨u, hu, hend⟩ := ih t (hs.step ht) hrunning fun k v hk hv =>
      hall (k + 1) v (Nat.succ_le_succ hk) ((run_succ ht k).trans hv)
    exact ⟨u, (run_succ ht (n + 1)).trans hu, hend⟩

/-! ## Two stores of bytes -/

/-- What an address reads as after a store depends only on the bytes stored and on what it read as before. -/
theorem Memory.read_writeList_congr {m m' : Memory} (hm : m.wf) (hm' : m'.wf) {vs : List Byte} {a c : Nat}
    (ha : a + vs.length ≤ Config.lastAddr + 1) (h : m.read c = m'.read c) :
    (m.writeList a vs).read c = (m'.writeList a vs).read c := by
  by_cases hout : c < a ∨ a + vs.length ≤ c
  · rw [Memory.read_writeList_of_outside m vs a c hout, Memory.read_writeList_of_outside m' vs a c hout, h]
  · obtain ⟨j, rfl⟩ := Nat.exists_eq_add_of_le (show a ≤ c by omega)
    have hj : j < vs.length := by omega
    rw [Memory.read_writeList hm vs a j hj ha, Memory.read_writeList hm' vs a j hj ha]

/-- Two stores whose ranges do not meet can be made in either order. -/
theorem Memory.writeList_comm {m : Memory} (hm : m.wf) {vs ws : List Byte} {a b : Nat} (hab : a + vs.length ≤ b)
    (hb : b + ws.length ≤ Config.lastAddr + 1) :
    (m.writeList a vs).writeList b ws = (m.writeList b ws).writeList a vs := by
  have ha : a + vs.length ≤ Config.lastAddr + 1 := hab.trans ((Nat.le_add_right ..).trans hb)
  have hvs : (m.writeList a vs).wf := Memory.wf_writeList hm vs a ha
  have hws : (m.writeList b ws).wf := Memory.wf_writeList hm ws b hb
  refine canonicalMemoriesThatReadAlikeAreEqual _ _ (Memory.wf_writeList hvs ws b hb) (Memory.wf_writeList hws vs a ha)
    fun c _ => ?_
  rcases Nat.lt_or_ge c b with hlt | hge
  · have hbefore : (m.writeList b ws).read c = m.read c := Memory.read_writeList_of_outside m ws b c (.inl hlt)
    rw [Memory.read_writeList_of_outside _ ws b c (.inl hlt)]
    exact Memory.read_writeList_congr hm hws ha hbefore.symm
  · have hafter : a + vs.length ≤ c := hab.trans hge
    rw [Memory.read_writeList_of_outside _ vs a c (.inr hafter)]
    exact Memory.read_writeList_congr hvs hm hb (Memory.read_writeList_of_outside m vs a c (.inr hafter))

/-! ## Loading the font (R138) -/

theorem State.wf_loadFontset {s : State} (hm : s.mem.wf) : s.loadFontset.mem.wf :=
  Memory.wf_writeList hm _ 0 (by simp)

theorem State.read_loadFontset_font {s : State} (hm : s.mem.wf) (j : Fin 80) :
    s.loadFontset.mem.read j.val = s.config.font[j.val] := by
  have h := Memory.read_writeList hm s.config.font.toList 0 j.val (by simp) (by simp)
  rwa [Nat.zero_add, Vector.getElem_toList] at h

theorem State.read_loadFontset_of_le (s : State) {a : Nat} (ha : 80 ≤ a) : s.loadFontset.mem.read a = s.mem.read a :=
  Memory.read_writeList_of_outside _ _ _ _ (.inr (by simpa using ha))

theorem State.read_loadFontset_twice {s : State} (hm : s.mem.wf) (a : Nat) :
    s.loadFontset.loadFontset.mem.read a = s.loadFontset.mem.read a := by
  rcases Nat.lt_or_ge a 80 with hlt | hge
  · rw [State.read_loadFontset_font (State.wf_loadFontset hm) ⟨a, hlt⟩, State.read_loadFontset_font hm ⟨a, hlt⟩,
      State.loadFontset_config]
  · exact s.loadFontset.read_loadFontset_of_le hge

theorem sameBut_loadFontset (s : State) : SameBut [.mem] s s.loadFontset :=
  (SameBut.refl _ s).withMem (by decide) _

/-! ## Loading a program (R139) -/

/-- The state with program bytes from 0x200 on. -/
def State.withProgram (s : State) (bytes : List Byte) : State := { s with mem := s.mem.writeList Config.progBase bytes }

theorem State.loadProgram_of_le (s : State) {bytes : List Byte} (h : bytes.length ≤ 3584) :
    s.loadProgram (some bytes) = .ok (s.withProgram bytes) := if_neg (Nat.not_lt.mpr h)

theorem State.loadProgram_of_lt (s : State) {bytes : List Byte} (h : 3584 < bytes.length) :
    s.loadProgram (some bytes) = .error (.tooLong bytes.length) := if_pos h

/-- A program of at most MAX_ROM bytes ends inside memory. -/
theorem progBase_add_le {len : Nat} (h : len ≤ 3584) : Config.progBase + len ≤ Config.lastAddr + 1 :=
  Nat.add_le_add_left h 0x200

theorem State.read_withProgram {s : State} (hm : s.mem.wf) {bytes : List Byte} (hlen : bytes.length ≤ 3584) (j : Nat)
    (hj : j < bytes.length) : (s.withProgram bytes).mem.read (0x200 + j) = bytes[j] :=
  Memory.read_writeList hm bytes Config.progBase j hj (progBase_add_le hlen)

theorem State.read_withProgram_of_outside (s : State) {bytes : List Byte} {a : Nat}
    (ha : a < 0x200 ∨ 0x200 + bytes.length ≤ a) : (s.withProgram bytes).mem.read a = s.mem.read a :=
  Memory.read_writeList_of_outside _ _ _ _ ha

theorem sameBut_withProgram (s : State) (bytes : List Byte) : SameBut [.mem] s (s.withProgram bytes) :=
  (SameBut.refl _ s).withMem (by decide) _

/-- Settles O51: each load is one store of bytes inside memory, or refused. -/
theorem loadsPlaceTheirBytes : Obligations.LoadsPlaceTheirBytes := by
  refine fun s hm => ⟨⟨State.read_loadFontset_font hm, fun a ha => s.read_loadFontset_of_le ha,
    State.read_loadFontset_twice hm, sameBut_loadFontset s⟩, fun bytes hlen => ?_, fun bytes hlen => ?_, rfl⟩
  · exact ⟨_, s.loadProgram_of_le hlen, State.read_withProgram hm hlen, fun a ha => s.read_withProgram_of_outside ha,
      sameBut_withProgram s bytes⟩
  · exact s.loadProgram_of_lt hlen

/-! ## Boot (R140) -/

/-- The font ends below 0x200, so the two loads commute. -/
theorem State.loadFontset_withProgram {s : State} (hm : s.mem.wf) {bytes : List Byte} (hlen : bytes.length ≤ 3584) :
    (s.withProgram bytes).loadFontset = s.loadFontset.withProgram bytes := by
  have hmem : (s.mem.writeList 0 s.config.font.toList).writeList Config.progBase bytes =
      (s.mem.writeList Config.progBase bytes).writeList 0 s.config.font.toList :=
    Memory.writeList_comm hm (by rw [Vector.length_toList]; decide) (progBase_add_le hlen)
  simp only [State.loadFontset, State.withProgram, hmem]

/-- Settles O52: a byte of the launch state is one of the font, one of the program, or 0 as after construction. -/
theorem bootGivesTheLaunchState : Obligations.BootGivesTheLaunchState := by
  intro c bytes hlen
  have hempty : (State.construct c).mem.wf := Memory.wf_nil
  refine ⟨_, State.loadProgram_of_le _ hlen, fun j => ?_, State.read_withProgram (State.wf_loadFontset hempty) hlen,
    fun a ha hout => ?_, (sameBut_loadFontset _).trans (sameBut_withProgram _ bytes),
    _, State.loadProgram_of_le _ hlen, State.loadFontset_withProgram hempty hlen⟩
  · rw [State.read_withProgram_of_outside _ (.inl (j.isLt.trans (by decide)))]
    exact State.read_loadFontset_font hempty j
  · rw [State.read_withProgram_of_outside _ hout, State.read_loadFontset_of_le _ ha]
    exact Memory.read_nil a

/-! ## Between cycles (R143) -/

theorem SameBut.withKey {ps : List Part} {s t : State} (h : SameBut ps s t) (hkey : .key ∈ ps) (key : Vector Bool 16) :
    SameBut ps s { t with key := key } := fun p hp => by
  cases p with
  | key => exact absurd hkey hp
  | _ => exact h _ hp

/-- Settles O53: the key written reads back, and each act has its frame. -/
theorem hostActsChangeOnlyKeysAndDrawFlag : Obligations.HostActsChangeOnlyKeysAndDrawFlag := by
  refine fun s => ⟨fun k b => ⟨?_, fun j hj => ?_, (SameBut.refl _ s).withKey (by decide) _⟩, rfl,
    (SameBut.refl _ s).withDraw (by decide) false⟩
  · rw [State.getKey_writeKey, if_pos rfl]
  · rw [State.getKey_writeKey, if_neg hj]

/-! ## A timer transfer and the timer step of its cycle (R149) -/

/-- The timer step adds one to the count in the cycle that takes ST from 1 to 0 (assumption 3). -/
theorem State.timerStep_soundExpired_eq_add (s : State) :
    s.timerStep.soundExpired = s.soundExpired + (if s.ST = 1 then 1 else 0) := by
  rw [State.timerStep_soundExpired]
  split <;> rfl

/-- Settles O37: the cycle is the transfer, then the timer step of the state the transfer leaves. -/
theorem timerWriteCountsDownInItsOwnCycle : Obligations.TimerWriteCountsDownInItsOwnCycle := by
  refine fun x s => ⟨fun h => ?_, fun h => ?_, fun h => ?_⟩
  · exact ⟨_, h.step_of_running rfl h.running, countDown_toNat _, countDown_toNat _⟩
  · exact ⟨_, h.step_of_running rfl h.running, countDown_toNat _, countDown_toNat _, State.timerStep_soundExpired_eq_add _⟩
  · exact ⟨_, h.step_of_running rfl h.running, s.getV_setV_self x s.DT, countDown_toNat _⟩

end Sys2Proof.Machine
